-- ==== Sys2Proof/Word.lean ====
section
/-! DEFINITION. The machine's words and the fields of an instruction word (00_scope.md R5, R6). -/

namespace Sys2Proof

/-- A register, a memory cell, an instruction word, the pc: 16 bits, bit 0 the least significant (R6). -/
abbrev Word := BitVec 16

/-- The flags register, one byte (10_state.md R27). -/
abbrev FlagsByte := BitVec 8

/-- A register field of a family-1 word, `s` or `t`, 0..15 (30_encoding.md R73). -/
abbrev RegField := BitVec 4

/-- The 12-bit address field of a family-0 word, 0..4095 (30_encoding.md R72). -/
abbrev Memloc := BitVec 12

end Sys2Proof
end

