-- ==== Sys2Proof/Config.lean ====
section
/-! DEFINITION. The implementation parameters of 00_scope.md R5, and the type of each parameter that
92_eei_decisions.md leaves a model to fix. The value the model takes for each of the latter stands in
Sys2Proof/Decode.lean (opcode numbers, bit 8) and Sys2Proof/Machine/Policy.lean (the rest). -/

namespace Sys2Proof.Config

/-- `NUM_REGS` (R5). -/
abbrev numRegs : Nat := 16
/-- `MEM_WORDS` (R5): addresses 0..4095 exist. -/
abbrev memWords : Nat := 4096
/-- `PROGRAM_START` (R5): the pc at reset and at the start of every run. -/
abbrev programStart : Nat := 256
/-- `OPCODE_REBASE` (R5): a family-1 opfield is its opcode less 7. -/
abbrev opcodeRebase : Nat := 7
/-- The greatest opcode in Encode's domain (30_encoding.md R78, D21). -/
abbrev maxOpcode : Nat := 21

/-- The 20 instructions admitted (30_encoding.md R80, R89), by name. -/
inductive Mnemonic where
  | halt | noop | jmp | jeq | jgt | jlt
  | setreg | load | store
  | add | sub | mul | div | cmp
  | and | or | xor | shl | shr | not
  deriving DecidableEq, Repr

/-- `BIT8_POLICY` (D3): what Decode does with bit 8 of a family-1 word. -/
inductive Bit8Policy where
  | ignore
  | invalid
  deriving DecidableEq, Repr

/-- `PC_OVERFLOW` (D4): what incrementing the pc at 4095 gives. `fault` holds 4096, where every read
fails; `wrap` gives 0. -/
inductive PcOverflow where
  | fault
  | wrap
  deriving DecidableEq, Repr

/-- `PC_AFTER_FAILED_READ` (D5): the pc after a fetch or operand fetch that failed. -/
inductive PcAfterFailedRead where
  | unchanged
  | incremented
  deriving DecidableEq, Repr

/-- `DIV0_POLICY` (D6): what DIV by 0 does. -/
inductive Div0Policy where
  | trap
  | zero
  deriving DecidableEq, Repr

/-- `LOAD_OVERFLOW` (D16): what the host's `Load` does with words that do not fit. -/
inductive LoadOverflow where
  | prefixThenFail
  | checkFirst
  deriving DecidableEq, Repr

end Sys2Proof.Config
end

