-- ==== Sys2Proof/Syntax.lean ====
section
/-! DEFINITION. The instructions, one constructor per row of spec/opcode_table.json. -/

namespace Sys2Proof

/-- A decoded instruction. It carries every field its word carries, the unused ones too: they are
decoded but not read (30_encoding.md R76, R82, 90_conflicts.md C9). The inline operand word of SETREG,
LOAD and STORE is no field: the engine fetches it when it executes the instruction (R81,
40_engine_cycle.md R104). -/
inductive Instr where
  /-- HALT, `m` ignored (R120). -/
  | halt (m : Memloc)
  /-- NOOP, `m` ignored (R121). -/
  | noop (m : Memloc)
  /-- JMP `m` (R122). -/
  | jmp (m : Memloc)
  /-- JEQ `m` (R123). -/
  | jeq (m : Memloc)
  /-- JGT `m` (R124). -/
  | jgt (m : Memloc)
  /-- JLT `m` (R125). -/
  | jlt (m : Memloc)
  /-- SETREG `t`, inline literal, `s` ignored (R140). -/
  | setreg (s t : RegField)
  /-- LOAD `t`, inline address, `s` ignored (R141). -/
  | load (s t : RegField)
  /-- STORE `s`, inline address, `t` ignored (R142). -/
  | store (s t : RegField)
  /-- ADD `s`, `t` (R161). -/
  | add (s t : RegField)
  /-- SUB `s`, `t` (R162). -/
  | sub (s t : RegField)
  /-- MUL `s`, `t` (R163). -/
  | mul (s t : RegField)
  /-- DIV `s`, `t` (R164). -/
  | div (s t : RegField)
  /-- CMP `s`, `t` (R165). -/
  | cmp (s t : RegField)
  /-- AND `s`, `t` (R191). -/
  | and (s t : RegField)
  /-- OR `s`, `t` (R192). -/
  | or (s t : RegField)
  /-- XOR `s`, `t` (R193). -/
  | xor (s t : RegField)
  /-- SHL by the literal count `n`, `t` (R194). -/
  | shl (n t : RegField)
  /-- SHR by the literal count `n`, `t` (R195). -/
  | shr (n t : RegField)
  /-- NOT `t`, `s` ignored (R196). -/
  | not (s t : RegField)
  deriving DecidableEq, Repr

end Sys2Proof
end

