-- ==== Sys2Proof/WellFormed.lean ====
section
/-! DEFINITION. The codec's tuple `(opcode, s, t, memloc)` and its well-formedness: the condition under
which 30_encoding.md R79 promises that encoding loses nothing. A term of `Instr` meets every check by its
type (Sys2Proof/Laws/PerInstr.lean); the tuple, whose fields are plain numbers because Encode accepts
wider ones (R78), need not. -/

namespace Sys2Proof

/-- What Decode answers and Encode takes (R75, R77). -/
structure Fields where
  opcode : Nat
  s : Nat
  t : Nat
  memloc : Nat
  deriving DecidableEq, Repr

/-- The opcode is in Encode's domain (R78). -/
def Fields.opcodeInDomain (f : Fields) : Bool := decide (f.opcode ≤ Config.maxOpcode)

/-- Register operands fit 4 bits and memloc 12 (R79). -/
def Fields.operandsInWidth (f : Fields) : Bool :=
  decide (f.s < 16) && decide (f.t < 16) && decide (f.memloc < 4096)

/-- The fields the opcode's family does not carry are 0 (R76, R79). -/
def Fields.uncarriedZero (f : Fields) : Bool :=
  if f.opcode < 8 then decide (f.s = 0) && decide (f.t = 0) else decide (f.memloc = 0)

/-- The tuples that survive `Decode(Encode(·))` (R79). -/
def Fields.wellFormed (f : Fields) : Bool :=
  f.opcodeInDomain && f.operandsInWidth && f.uncarriedZero

end Sys2Proof
end

