-- ==== Sys2Proof/Decode.lean ====
section
/-! DEFINITION. The codec (30_encoding.md): Decode, total on every word, and Encode. -/

namespace Sys2Proof

open Config

/-- The opcode number of each mnemonic (R80). UNVERIFIED, the spec's decision (D1, log entry 1). -/
def opcodeNumber : Mnemonic → Nat
  | .halt => 0 | .noop => 1 | .jmp => 2 | .jeq => 3 | .jgt => 4 | .jlt => 5
  | .setreg => 8 | .load => 9 | .store => 10
  | .add => 11 | .sub => 12 | .mul => 13 | .div => 14 | .cmp => 15
  | .and => 16 | .or => 17 | .xor => 18 | .shl => 19 | .shr => 20 | .not => 21

/-- Decode ignores bit 8 (R74). UNVERIFIED, the spec's decision (D3, log entry 3). -/
def bit8Policy : Bit8Policy := .ignore

/-- The 20 mnemonics in the order of R80's table. -/
def mnemonics : List Mnemonic :=
  [.halt, .noop, .jmp, .jeq, .jgt, .jlt, .setreg, .load, .store, .add, .sub, .mul, .div, .cmp,
   .and, .or, .xor, .shl, .shr, .not]

/-- The mnemonic an opcode number names, if any (R103's case distinction). -/
def mnemonicOf (op : Nat) : Option Mnemonic := mnemonics.find? fun k => opcodeNumber k == op

/-- The instruction of a mnemonic with given fields. -/
def mkInstr (k : Mnemonic) (s t : RegField) (m : Memloc) : Instr :=
  match k with
  | .halt => .halt m
  | .noop => .noop m
  | .jmp => .jmp m
  | .jeq => .jeq m
  | .jgt => .jgt m
  | .jlt => .jlt m
  | .setreg => .setreg s t
  | .load => .load s t
  | .store => .store s t
  | .add => .add s t
  | .sub => .sub s t
  | .mul => .mul s t
  | .div => .div s t
  | .cmp => .cmp s t
  | .and => .and s t
  | .or => .or s t
  | .xor => .xor s t
  | .shl => .shl s t
  | .shr => .shr s t
  | .not => .not s t

/-- `Decode(w)` of R75: the fields of a word. It never fails. -/
def decodeFields (w : Word) : Fields :=
  if w.getLsbD 15 then
    { opcode := (w.extractLsb' 9 6).toNat + opcodeRebase
      s := (w.extractLsb' 4 4).toNat
      t := (w.extractLsb' 0 4).toNat
      memloc := 0 }
  else
    { opcode := (w.extractLsb' 12 3).toNat
      s := 0
      t := 0
      memloc := (w.extractLsb' 0 12).toNat }

/-- What a word stands for: an instruction, or the invalid-opcode verdict with the decoded opcode
number (R85). -/
inductive Verdict where
  | instr (i : Instr)
  | invalidOpcode (op : Nat)
  deriving DecidableEq, Repr

/-- The dispatch of a decoded tuple to one of the 20 instructions (R103). -/
def dispatch (f : Fields) : Verdict :=
  match mnemonicOf f.opcode with
  | some k => .instr (mkInstr k (BitVec.ofNat 4 f.s) (BitVec.ofNat 4 f.t) (BitVec.ofNat 12 f.memloc))
  | none => .invalidOpcode f.opcode

/-- Bit 8 of a family-1 word is set, and the policy does not ignore it (D3). -/
def bit8Rejected (w : Word) : Bool :=
  decide (bit8Policy = .invalid) && w.getLsbD 15 && w.getLsbD 8

/-- The decoder: total on all 65,536 words (R83, R85). -/
def decode (w : Word) : Verdict :=
  if bit8Rejected w then .invalidOpcode (decodeFields w).opcode else dispatch (decodeFields w)

/-- R77's formula, with R78's masks. -/
def packWord (o s t m : Nat) : Word :=
  if o < 8 then
    BitVec.ofNat 16 ((o <<< 12) ||| (m &&& 0xFFF))
  else
    BitVec.ofNat 16 (0x8000 ||| ((o - opcodeRebase) <<< 9) ||| ((s &&& 0xF) <<< 4) ||| (t &&& 0xF))

/-- `Encode(o, s, t, m)` (R77): defined for `o` in 0..21, refused for any other (R78, D21, log entry 18). -/
def encodeFields (f : Fields) : Option Word :=
  if f.opcode ≤ maxOpcode then some (packWord f.opcode f.s f.t f.memloc) else none

/-- The mnemonic of an instruction. -/
def Instr.mnemonic : Instr → Mnemonic
  | .halt _ => .halt
  | .noop _ => .noop
  | .jmp _ => .jmp
  | .jeq _ => .jeq
  | .jgt _ => .jgt
  | .jlt _ => .jlt
  | .setreg _ _ => .setreg
  | .load _ _ => .load
  | .store _ _ => .store
  | .add _ _ => .add
  | .sub _ _ => .sub
  | .mul _ _ => .mul
  | .div _ _ => .div
  | .cmp _ _ => .cmp
  | .and _ _ => .and
  | .or _ _ => .or
  | .xor _ _ => .xor
  | .shl _ _ => .shl
  | .shr _ _ => .shr
  | .not _ _ => .not

/-- The `memloc` an instruction carries; 0 where its family carries none (R76). -/
def Instr.memloc : Instr → Memloc
  | .halt m => m
  | .noop m => m
  | .jmp m => m
  | .jeq m => m
  | .jgt m => m
  | .jlt m => m
  | .setreg _ _ => 0
  | .load _ _ => 0
  | .store _ _ => 0
  | .add _ _ => 0
  | .sub _ _ => 0
  | .mul _ _ => 0
  | .div _ _ => 0
  | .cmp _ _ => 0
  | .and _ _ => 0
  | .or _ _ => 0
  | .xor _ _ => 0
  | .shl _ _ => 0
  | .shr _ _ => 0
  | .not _ _ => 0

/-- The source and target fields an instruction carries; 0 where its family carries none (R76). -/
def Instr.regFields : Instr → RegField × RegField
  | .halt _ => (0, 0)
  | .noop _ => (0, 0)
  | .jmp _ => (0, 0)
  | .jeq _ => (0, 0)
  | .jgt _ => (0, 0)
  | .jlt _ => (0, 0)
  | .setreg s t => (s, t)
  | .load s t => (s, t)
  | .store s t => (s, t)
  | .add s t => (s, t)
  | .sub s t => (s, t)
  | .mul s t => (s, t)
  | .div s t => (s, t)
  | .cmp s t => (s, t)
  | .and s t => (s, t)
  | .or s t => (s, t)
  | .xor s t => (s, t)
  | .shl n t => (n, t)
  | .shr n t => (n, t)
  | .not s t => (s, t)

/-- The codec's tuple of an instruction. -/
def Instr.fields (i : Instr) : Fields :=
  { opcode := opcodeNumber i.mnemonic
    s := i.regFields.1.toNat
    t := i.regFields.2.toNat
    memloc := i.memloc.toNat }

/-- The word of an instruction (R77): bit 8 of a family-1 word is written as 0 (R74). -/
def encode (i : Instr) : Word :=
  packWord i.fields.opcode i.fields.s i.fields.t i.fields.memloc

/-- SETREG, LOAD and STORE take two words, every other instruction one (R81). -/
def Instr.hasInlineOperand (i : Instr) : Bool :=
  match i.mnemonic with
  | .setreg => true
  | .load => true
  | .store => true
  | .halt => false
  | .noop => false
  | .jmp => false
  | .jeq => false
  | .jgt => false
  | .jlt => false
  | .add => false
  | .sub => false
  | .mul => false
  | .div => false
  | .cmp => false
  | .and => false
  | .or => false
  | .xor => false
  | .shl => false
  | .shr => false
  | .not => false

/-- The words a program image holds for an instruction: its own word and, where it has one, its inline
operand word at the next address (R81, R86). -/
def encodeWords (i : Instr) (operand : Word) : List Word :=
  if i.hasInlineOperand then [encode i, operand] else [encode i]

/-- The first word of an instruction whose bits are numbered as spec/opcode_table.json numbers them:
bit 0 is the least significant bit of the first word, and the bits above `nbits` are 0. -/
def tableFirstWord (nbits w : Nat) : Word := BitVec.ofNat 16 (w % 2 ^ nbits)

/-- The second word of the same instruction, its inline operand where it has one. -/
def tableSecondWord (nbits w : Nat) : Word := BitVec.ofNat 16 (w % 2 ^ nbits / 2 ^ 16)

/-- The instruction the decoder reads from a table word; `none` where the verdict is invalid. -/
def decodeTableWord (nbits w : Nat) : Option Instr :=
  match decode (tableFirstWord nbits w) with
  | .instr i => some i
  | .invalidOpcode _ => none

end Sys2Proof
end

