-- ==== Sys2Proof/Machine/Policy.lean ====
section
/-! DEFINITION. The value this model takes for each open parameter of 92_eei_decisions.md that concerns
execution: the spec's own default, which the numbered rules state. -/

namespace Sys2Proof.Machine

/-- The pc holds 4096 after an increment at 4095 (10_state.md R25). UNVERIFIED, the spec's decision (D4, log entry 4). -/
def pcOverflow : Config.PcOverflow := .fault

/-- A failed fetch leaves the pc (60_exceptions.md R217). UNVERIFIED, the spec's decision (D5, log entry 5). -/
def pcAfterFailedRead : Config.PcAfterFailedRead := .unchanged

/-- DIV by 0 traps (43_arithmetic.md R164). UNVERIFIED, the spec's decision (D6, log entry 6). -/
def div0Policy : Config.Div0Policy := .trap

/-- `Load` writes what fits and then fails (20_memory.md R65). UNVERIFIED, the spec's decision (D16, log entry 15). -/
def loadOverflow : Config.LoadOverflow := .prefixThenFail

end Sys2Proof.Machine
end

