-- ==== Sys2Proof/Machine/State.lean ====
section
/-! DEFINITION. The architectural state (10_state.md R20), its reset value (R37), and the reasons a step
can stop. -/

namespace Sys2Proof.Machine

/-- The four error kinds of 60_exceptions.md R210. An error raised in a run is no `Fault` of this model:
the machine goes to a next state whose status is `failed` (log entry 23). The payloads of the first two
are UNVERIFIED, the spec's decision (D17, log entry 16). -/
inductive RunError where
  /-- An access at an address 4096 or above, with the address (R211). -/
  | invalidMemoryLocation (addr : Nat)
  /-- A host register access at an index 16 or above, with the index (R212). -/
  | invalidRegister (index : Nat)
  /-- A word that is none of the 20 instructions, with its decoded opcode number and the word (R213). -/
  | invalidOpcode (op : Nat) (word : Word)
  /-- A DIV whose divisor is 0 (R214). -/
  | divisionByZero
  deriving DecidableEq, Repr

/-- The engine's run status (10_state.md R35). -/
inductive Status where
  /-- Created, or not started. -/
  | idle
  /-- Inside a run. -/
  | running
  /-- The last run ended in success at a HALT. -/
  | halted
  /-- The last run ended with the error. -/
  | failed (e : RunError)
  deriving DecidableEq, Repr

/-- One memory cell: a word address and the 16-bit value it holds (20_memory.md R50). The machine has no
byte view, so the unit is the word and not `Host.Cell`'s byte (log entry 10). -/
abbrev Cell := Nat × Word

/-- The cells that differ from `blankCell`, by strictly rising address (`Memory.wf`). -/
abbrev Memory := List Cell

/-- What an address not listed reads as: the reset contents of every cell (10_state.md R37,
70_reset_and_hazards.md R243). -/
def blankCell : Word := 0

/-- Everything the spec gives the machine (10_state.md R20). -/
structure State where
  /-- `x[0]` .. `x[15]` (R21). -/
  regs : Vector Word 16
  /-- The program counter, stored in 16 bits, holding 0..4096 (R24, R25). -/
  pc : Word
  /-- The flags byte: `OV` bit 0, `LT` bit 1, `GT` bit 2 (R27). -/
  flags : FlagsByte
  /-- The 4096 cells that hold both program and data (20_memory.md R50). -/
  mem : Memory
  /-- The run status (R35). -/
  status : Status
  deriving DecidableEq, Repr

/-- Reset is the creation of a machine (10_state.md R37, 70_reset_and_hazards.md R240). -/
def State.reset : State :=
  { regs := Vector.replicate 16 0
    pc := BitVec.ofNat 16 Config.programStart
    flags := 0
    mem := []
    status := .idle }

/-- Why a step stops with no next state. -/
inductive Fault where
  /-- Raised by `step` alone, when no run is in progress: a step requires status Running
  (40_engine_cycle.md R105), and a core whose status is Idle, Halted or Failed waits for the host's next
  `Run()` (60_exceptions.md R228). A stuck state. Safe: the hardware takes no step there either. -/
  | notRunning
  deriving DecidableEq, Repr

/-- Why the model gives no meaning to a request. -/
inductive Refusal where
  /-- Raised by `exec` for an instruction without a meaning yet. No arm raises it. Safe. -/
  | notModelled (mnemonic : String)
  /-- Raised by `hostCall`: a host operation while a run is in progress has no meaning (20_memory.md R67,
  D15). Safe: nothing can be proved of such a call. -/
  | hostCallDuringRun
  /-- Raised by `hostCall` for `Encode` of an opcode outside 0..21 (30_encoding.md R78, D21). Safe. -/
  | encodeOutsideDomain
  deriving DecidableEq, Repr

end Sys2Proof.Machine
end

