-- ==== Sys2Proof/Machine/Ops.lean ====
section
/-! DEFINITION. The named operations over memory, registers, the pc and the run status. The meanings, the
step and the host's calls are written over these and touch State in no other way. -/

namespace Sys2Proof.Machine

/-- What exec and step answer. -/
abbrev Result := Host.Outcome State Fault Refusal

/-! ### Memory as data -/

/-- The cell at an address. -/
def Memory.get : Memory → Nat → Word
  | [], _ => blankCell
  | (b, w) :: rest, a => if a = b then w else Memory.get rest a

/-- Writes one cell and keeps the canonical form: addresses rise strictly, and a cell that holds
`blankCell` is not listed. -/
def Memory.set : Memory → Nat → Word → Memory
  | [], a, v => if v = blankCell then [] else [(a, v)]
  | (b, w) :: rest, a, v =>
    if a < b then
      if v = blankCell then (b, w) :: rest else (a, v) :: (b, w) :: rest
    else if a = b then
      if v = blankCell then rest else (a, v) :: rest
    else
      (b, w) :: Memory.set rest a v

/-- The canonical form: strictly rising addresses, all below 4096, none listed with `blankCell`. -/
abbrev Memory.wf (m : Memory) : Prop :=
  m.Pairwise (fun c d => c.1 < d.1) ∧ ∀ c ∈ m, c.1 < Config.memWords ∧ c.2 ≠ blankCell

/-! ### Bounds-checked access (20_memory.md R51, R52) -/

/-- `MemRead(addr, 1)` (R51). -/
def memRead (s : State) (addr : Nat) : Except RunError Word :=
  if Config.memWords ≤ addr then .error (.invalidMemoryLocation addr) else .ok (s.mem.get addr)

/-- `MemWrite(addr, 1, v)` (R52). -/
def memWrite (s : State) (addr : Nat) (v : Word) : Except RunError State :=
  if Config.memWords ≤ addr then .error (.invalidMemoryLocation addr)
  else .ok { s with mem := s.mem.set addr v }

/-! ### Registers and pc (10_state.md R21, R24) -/

/-- `x[r]`. -/
def State.readReg (s : State) (r : RegField) : Word := s.regs[r.toNat]'(by omega)

/-- `x[r] <- v`. -/
def State.writeReg (s : State) (r : RegField) (v : Word) : State :=
  { s with regs := s.regs.set r.toNat v (by omega) }

/-- `pc <- target`. -/
def State.setPc (s : State) (target : Word) : State := { s with pc := target }

/-- The pc's successor: never reduced modulo 4096 (R25); under `wrap`, 4095 is followed by 0 (D4). -/
def nextPc (pc : Word) : Word :=
  match pcOverflow with
  | .fault => pc + 1
  | .wrap => if pc + 1 = BitVec.ofNat 16 Config.memWords then 0 else pc + 1

/-- `pc <- pc + 1`. -/
def State.advancePc (s : State) : State := s.setPc (nextPc s.pc)

/-! ### The run status -/

/-- `status <- v` (10_state.md R35). -/
def State.setStatus (s : State) (v : Status) : State := { s with status := v }

/-- `raise e` in a run, the machine's one way to take an exception (40_engine_cycle.md R106,
60_exceptions.md R216): the run ends, the status says why, and everything else, the pc too, stays as it
is. There is no vector, no saved register and no mode. There is no return from it either (R220): the host
starts over with `startRun`. -/
def raise (e : RunError) (s : State) : Result := .next (s.setStatus (.failed e))

/-- `Run()` up to its first step (40_engine_cycle.md R100): it sets the pc and the status and nothing
else, whatever the status was. -/
def startRun (s : State) : State :=
  (s.setPc (BitVec.ofNat 16 Config.programStart)).setStatus .running

/-! ### Fetching (40_engine_cycle.md R102, R104) -/

/-- The state in which a failed fetch raises: the pc is not incremented (D5). -/
def afterFailedRead (s : State) : State :=
  match pcAfterFailedRead with
  | .unchanged => s
  | .incremented => s.advancePc

/-- Reads the word at the pc, then increments the pc, then goes on with the word. It is the instruction
fetch (R102) and `FetchOperand()` (R104). -/
def fetchThen (s : State) (k : Word → State → Result) : Result :=
  match memRead s s.pc.toNat with
  | .error e => raise e (afterFailedRead s)
  | .ok w => k w s.advancePc

/-- Goes on with the cell at a data address, or raises. -/
def readThen (s : State) (addr : Nat) (k : Word → Result) : Result :=
  match memRead s addr with
  | .error e => raise e s
  | .ok v => k v

/-- Stores to a data address, or raises. -/
def storeOrRaise (s : State) (addr : Nat) (v : Word) : Result :=
  match memWrite s addr v with
  | .error e => raise e s
  | .ok s' => .next s'

end Sys2Proof.Machine
end

