-- ==== Sys2Proof/Machine/Operands.lean ====
section
/-! DEFINITION. The operand forms of 30_encoding.md R82. Nothing is sign-extended, scaled or shifted. -/

namespace Sys2Proof.Machine

/-- The target of a jump: `memloc`, zero-extended to the pc's width. -/
def jumpTarget (m : Memloc) : Word := m.setWidth 16

/-- The count of a shift: the source field itself as a number 0..15, not a register. -/
def shiftCount (n : RegField) : Nat := n.toNat

/-- The unsigned value of a register operand. -/
abbrev regValue (s : State) (r : RegField) : Nat := (s.readReg r).toNat

/-- The address in an inline operand word: the whole word, not masked (20_memory.md R54). -/
abbrev operandAddress (w : Word) : Nat := w.toNat

end Sys2Proof.Machine
end

