-- ==== Sys2Proof/Machine/Flags.lean ====
section
/-! DEFINITION. The flags byte (10_state.md R27 to R31): its bits, the predicates that read them and the
setters that write them, and the overflow rule of 43_arithmetic.md R160. -/

namespace Sys2Proof.Machine

/-- `OV` is bit 0. -/
def ovBit : Nat := 0
/-- `LT` is bit 1. -/
def ltBit : Nat := 1
/-- `GT` is bit 2. -/
def gtBit : Nat := 2

/-- The byte with one bit written and the others kept. -/
def withBit (f : FlagsByte) (i : Nat) (b : Bool) : FlagsByte :=
  if b then f ||| (1#8 <<< i) else f &&& ~~~(1#8 <<< i)

/-- `flags.OV`. -/
def State.ov (s : State) : Bool := s.flags.getLsbD ovBit
/-- `flags.LT`. -/
def State.lt (s : State) : Bool := s.flags.getLsbD ltBit
/-- `flags.GT`. -/
def State.gt (s : State) : Bool := s.flags.getLsbD gtBit

/-- `Equal()` (R29): equal has no bit of its own (90_conflicts.md C4, log entry 24). -/
def State.isEqual (s : State) : Bool := !s.gt && !s.lt
/-- `Greater()` (R29). -/
def State.isGreater (s : State) : Bool := s.gt
/-- `Lesser()` (R29). -/
def State.isLesser (s : State) : Bool := s.lt

/-- Writes the flags byte. -/
def State.setFlags (s : State) (f : FlagsByte) : State := { s with flags := f }

/-- The comparison bits written, `OV` kept (R30). -/
def State.setComparison (s : State) (gt lt : Bool) : State :=
  s.setFlags (withBit (withBit s.flags gtBit gt) ltBit lt)

/-- `SetEqual()` (R30). -/
def State.setEqual (s : State) : State := s.setComparison false false
/-- `SetGreater()` (R30). -/
def State.setGreater (s : State) : State := s.setComparison true false
/-- `SetLesser()` (R30). -/
def State.setLesser (s : State) : State := s.setComparison false true

/-- `SetOverflow()` (R31). -/
def State.setOverflow (s : State) : State := s.setFlags (withBit s.flags ovBit true)
/-- `ClearOverflow()` (R31). -/
def State.clearOverflow (s : State) : State := s.setFlags (withBit s.flags ovBit false)

/-- The overflow rule: the exact result is outside 0..65535 (43_arithmetic.md R160). -/
def overflows (wide : Int) : Bool := decide (wide < 0) || decide (65535 < wide)

/-- `ArithFinish(wide)` (43_arithmetic.md R160): the low 16 bits go to `x[t]`, a negative value in two's
complement (PRESUMED by the spec, its passage G1, log entry 20), and `OV` says whether they are the whole. -/
def arithFinish (t : RegField) (wide : Int) (s : State) : State :=
  if overflows wide then (s.writeReg t (BitVec.ofInt 16 wide)).setOverflow
  else (s.writeReg t (BitVec.ofInt 16 wide)).clearOverflow

end Sys2Proof.Machine
end

