-- ==== Sys2Proof/Machine/Arithmetic.lean ====
section
/-! DEFINITION. ADD, SUB, MUL, DIV and CMP (43_arithmetic.md): an exact integer from the unsigned operands,
then `arithFinish`. -/

namespace Sys2Proof.Machine

/-- ADD (R161). -/
def execAdd (s t : RegField) (st : State) : Result :=
  .next (arithFinish t ((regValue st s : Int) + (regValue st t : Int)) st)

/-- SUB (R162): source minus target. -/
def execSub (s t : RegField) (st : State) : Result :=
  .next (arithFinish t ((regValue st s : Int) - (regValue st t : Int)) st)

/-- MUL (R163). -/
def execMul (s t : RegField) (st : State) : Result :=
  .next (arithFinish t ((regValue st s : Int) * (regValue st t : Int)) st)

/-- Division by zero (R164, R214): it traps before any write. Under `zero`, the target and `OV` are
cleared (D6, log entry 6). -/
def divideByZero (t : RegField) (st : State) : Result :=
  match div0Policy with
  | .trap => raise .divisionByZero st
  | .zero => .next (arithFinish t 0 st)

/-- DIV (R164): source divided by target, rounded down. -/
def execDiv (s t : RegField) (st : State) : Result :=
  if regValue st t = 0 then divideByZero t st
  else .next (arithFinish t ((regValue st s / regValue st t : Nat) : Int) st)

/-- CMP (R165): unsigned. -/
def execCmp (s t : RegField) (st : State) : Result :=
  if regValue st s = regValue st t then .next st.setEqual
  else if regValue st t < regValue st s then .next st.setGreater
  else .next st.setLesser

end Sys2Proof.Machine
end

