-- ==== Sys2Proof/Machine/ControlFlow.lean ====
section
/-! DEFINITION. HALT, NOOP and the jumps (41_control_flow.md). On entry the pc is the instruction's
address + 1. -/

namespace Sys2Proof.Machine

/-- A jump that is taken if the condition holds (R126). -/
def jumpIf (cond : Bool) (m : Memloc) (s : State) : Result :=
  if cond then .next (s.setPc (jumpTarget m)) else .next s

/-- HALT (R120): the run ends in success. -/
def execHalt (_m : Memloc) (s : State) : Result := .next (s.setStatus .halted)

/-- NOOP (R121). -/
def execNoop (_m : Memloc) (s : State) : Result := .next s

/-- JMP (R122). -/
def execJmp (m : Memloc) (s : State) : Result := jumpIf true m s

/-- JEQ (R123). -/
def execJeq (m : Memloc) (s : State) : Result := jumpIf s.isEqual m s

/-- JGT (R124). -/
def execJgt (m : Memloc) (s : State) : Result := jumpIf s.isGreater m s

/-- JLT (R125). -/
def execJlt (m : Memloc) (s : State) : Result := jumpIf s.isLesser m s

end Sys2Proof.Machine
end

