-- ==== Sys2Proof/Machine/DataTransfer.lean ====
section
/-! DEFINITION. SETREG, LOAD and STORE (42_data_transfer.md). Each fetches its inline operand word first. -/

namespace Sys2Proof.Machine

/-- SETREG (R140). -/
def execSetreg (_s t : RegField) (st : State) : Result :=
  fetchThen st fun lit st' => .next (st'.writeReg t lit)

/-- LOAD (R141). -/
def execLoad (_s t : RegField) (st : State) : Result :=
  fetchThen st fun addr st' => readThen st' (operandAddress addr) fun v => .next (st'.writeReg t v)

/-- STORE (R142). -/
def execStore (s _t : RegField) (st : State) : Result :=
  fetchThen st fun addr st' => storeOrRaise st' (operandAddress addr) (st'.readReg s)

end Sys2Proof.Machine
end

