-- ==== Sys2Proof/Machine/Logical.lean ====
section
/-! DEFINITION. AND, OR, XOR, SHL, SHR and NOT (44_logical_shift.md). None writes a flag (R190:
UNVERIFIED, the spec's decision D7, log entry 7). -/

namespace Sys2Proof.Machine

/-- AND (R191). -/
def execAnd (s t : RegField) (st : State) : Result :=
  .next (st.writeReg t (st.readReg s &&& st.readReg t))

/-- OR (R192). -/
def execOr (s t : RegField) (st : State) : Result :=
  .next (st.writeReg t (st.readReg s ||| st.readReg t))

/-- XOR (R193). -/
def execXor (s t : RegField) (st : State) : Result :=
  .next (st.writeReg t (st.readReg s ^^^ st.readReg t))

/-- SHL (R194): zeros shift in, bits past bit 15 are lost. -/
def execShl (n t : RegField) (st : State) : Result :=
  .next (st.writeReg t (st.readReg t <<< shiftCount n))

/-- SHR (R195): a logical shift. -/
def execShr (n t : RegField) (st : State) : Result :=
  .next (st.writeReg t (st.readReg t >>> shiftCount n))

/-- NOT (R196). -/
def execNot (_s t : RegField) (st : State) : Result :=
  .next (st.writeReg t (~~~(st.readReg t)))

end Sys2Proof.Machine
end

