-- ==== Sys2Proof/Machine/Dispatch.lean ====
section
/-! DEFINITION. The dispatch of a decoded instruction to its rule (40_engine_cycle.md R103). -/

namespace Sys2Proof.Machine

def exec (i : Instr) (s : State) : Host.Outcome State Fault Refusal :=
  match i with
  | .halt m => Sys2Proof.Machine.execHalt m s
  | .noop m => Sys2Proof.Machine.execNoop m s
  | .jmp m => Sys2Proof.Machine.execJmp m s
  | .jeq m => Sys2Proof.Machine.execJeq m s
  | .jgt m => Sys2Proof.Machine.execJgt m s
  | .jlt m => Sys2Proof.Machine.execJlt m s
  | .setreg a t => Sys2Proof.Machine.execSetreg a t s
  | .load a t => Sys2Proof.Machine.execLoad a t s
  | .store a t => Sys2Proof.Machine.execStore a t s
  | .add a t => Sys2Proof.Machine.execAdd a t s
  | .sub a t => Sys2Proof.Machine.execSub a t s
  | .mul a t => Sys2Proof.Machine.execMul a t s
  | .div a t => Sys2Proof.Machine.execDiv a t s
  | .cmp a t => Sys2Proof.Machine.execCmp a t s
  | .and a t => Sys2Proof.Machine.execAnd a t s
  | .or a t => Sys2Proof.Machine.execOr a t s
  | .xor a t => Sys2Proof.Machine.execXor a t s
  | .shl n t => Sys2Proof.Machine.execShl n t s
  | .shr n t => Sys2Proof.Machine.execShr n t s
  | .not a t => Sys2Proof.Machine.execNot a t s

end Sys2Proof.Machine
end

