-- ==== Sys2Proof/Machine/Step.lean ====
section
/-! DEFINITION. One step of the engine (40_engine_cycle.md R105), and how a test places an instruction. -/

namespace Sys2Proof.Machine

/-- Decode and dispatch of a fetched word; the pc is already past it (R103). -/
def runWord (w : Word) (s : State) : Result :=
  match decode w with
  | .instr i => exec i s
  | .invalidOpcode op => raise (.invalidOpcode op w) s

/-- `Step()` (R105): fetch, increment, decode, execute. It requires status Running; in any other status
the machine is stuck until the host's next `Run()` (log entry 21). -/
def step (s : State) : Host.Outcome State Fault Refusal :=
  match s.status with
  | .running => fetchThen s runWord
  | .idle => .fault .notRunning
  | .halted => .fault .notRunning
  | .failed _ => .fault .notRunning

/-- The state in which the next step fetches the given instruction. It stands for the host's `Load` and
`Run()` (70_reset_and_hazards.md R244): the words go to the pc and the address after it, and the status
becomes Running. Where the pc leaves no room for two words, it is first set to the program start (log
entry 22). -/
def State.withFetchWord (s : State) (nbits w : Nat) : State :=
  let base : Word := if s.pc.toNat + 2 ≤ Config.memWords then s.pc else BitVec.ofNat 16 Config.programStart
  { s with
    pc := base
    mem := (s.mem.set base.toNat (tableFirstWord nbits w)).set (base.toNat + 1) (tableSecondWord nbits w)
    status := .running }

end Sys2Proof.Machine
end

