-- ==== Sys2Proof/Machine/Run.lean ====
section
/-! DEFINITION. Runs (40_engine_cycle.md R100, R101, R109; 70_reset_and_hazards.md R251). -/

namespace Sys2Proof.Machine

/-- Steps until the status is no longer Running, within a budget. `none` says only that the run has not
ended within the budget: it is no outcome of the hardware (R251, D20, log entry 17). -/
def runWithin : Nat → State → Option State
  | 0, s => if s.status = .running then none else some s
  | k + 1, s =>
    if s.status = .running then
      match step s with
      | .next s' => runWithin k s'
      | .fault _ => none
      | .refused _ => none
    else some s

/-- `Run()` within a budget (R100). The result of the run is the status of the final state, which is
Halted or Failed(e) (R109). -/
def hostRun (budget : Nat) (s : State) : Option State := runWithin budget (startRun s)

end Sys2Proof.Machine
end

