-- ==== Sys2Proof/Machine/HostCalls.lean ====
section
/-! DEFINITION. The host's transactions (70_reset_and_hazards.md R245). `create` is `State.reset`. The host
acts between runs only and has no operation that writes the flags or the pc (10_state.md R33, R41).
Addresses, indexes and codec operands are unbounded numbers; cell and register values are 16-bit words
by type (D22, log entry 19). -/

namespace Sys2Proof.Machine

/-- A transaction of R245. -/
inductive HostCall where
  | load (base : Nat) (words : List Word)
  | setMemory (addr : Nat) (v : Word)
  | getMemory (addr : Nat)
  | setRegister (index : Nat) (v : Word)
  | getRegister (index : Nat)
  | getOverflow
  | getEqual
  | getGreater
  | getLesser
  | programCounter
  | memorySize
  /-- Starts a run. The steps that follow are `runWithin`'s, and the result is the final status. -/
  | run
  | encode (f : Fields)
  | decode (w : Word)
  deriving DecidableEq, Repr

/-- What the core returns. -/
inductive Reply where
  | ok
  | word (v : Word)
  | bool (b : Bool)
  | number (n : Nat)
  | fields (f : Fields)
  /-- The run is under way; its result is the status it ends in. -/
  | started
  /-- An error returned to the caller; it changes no status (60_exceptions.md R227). -/
  | error (e : RunError)
  deriving DecidableEq, Repr

/-- `GetMemory(addr)` (20_memory.md R64). -/
def getMemory (s : State) (addr : Nat) : State × Reply :=
  match memRead s addr with
  | .error e => (s, .error e)
  | .ok v => (s, .word v)

/-- `SetMemory(addr, v)` (20_memory.md R64). -/
def setMemory (s : State) (addr : Nat) (v : Word) : State × Reply :=
  match memWrite s addr v with
  | .error e => (s, .error e)
  | .ok s' => (s', .ok)

/-- Writes the words at rising addresses up to the first one that does not fit (20_memory.md R65). -/
def loadWords (s : State) (base : Nat) : List Word → State × Reply
  | [] => (s, .ok)
  | v :: rest =>
    match memWrite s base v with
    | .error e => (s, .error e)
    | .ok s' => loadWords s' (base + 1) rest

/-- `Load(base, words)` (20_memory.md R65): what fits is written, then the first word that does not fit
fails. Under `checkFirst`, nothing is written if a word does not fit (D16, log entry 15). -/
def hostLoad (s : State) (base : Nat) (words : List Word) : State × Reply :=
  match loadOverflow with
  | .prefixThenFail => loadWords s base words
  | .checkFirst =>
    if words ≠ [] ∧ Config.memWords < base + words.length then
      (s, .error (.invalidMemoryLocation (max base Config.memWords)))
    else loadWords s base words

/-- `GetRegister(i)` (10_state.md R23). -/
def getRegister (s : State) (index : Nat) : State × Reply :=
  if Config.numRegs ≤ index then (s, .error (.invalidRegister index))
  else (s, .word (s.readReg (BitVec.ofNat 4 index)))

/-- `SetRegister(i, v)` (10_state.md R23). -/
def setRegister (s : State) (index : Nat) (v : Word) : State × Reply :=
  if Config.numRegs ≤ index then (s, .error (.invalidRegister index))
  else (s.writeReg (BitVec.ofNat 4 index) v, .ok)

/-- What an accepted call does (R245). -/
def acceptedCall (c : HostCall) (s : State) : Host.Outcome (State × Reply) Fault Refusal :=
  match c with
  | .load base words => .next (hostLoad s base words)
  | .setMemory addr v => .next (setMemory s addr v)
  | .getMemory addr => .next (getMemory s addr)
  | .setRegister i v => .next (setRegister s i v)
  | .getRegister i => .next (getRegister s i)
  | .getOverflow => .next (s, .bool s.ov)
  | .getEqual => .next (s, .bool s.isEqual)
  | .getGreater => .next (s, .bool s.isGreater)
  | .getLesser => .next (s, .bool s.isLesser)
  | .programCounter => .next (s, .number s.pc.toNat)
  | .memorySize => .next (s, .number Config.memWords)
  | .run => .next (startRun s, .started)
  | .encode f =>
    match encodeFields f with
    | some w => .next (s, .word w)
    | none => .refused .encodeOutsideDomain
  | .decode w => .next (s, .fields (decodeFields w))

/-- A host transaction: refused while a run is in progress (20_memory.md R67, R246). -/
def hostCall (c : HostCall) (s : State) : Host.Outcome (State × Reply) Fault Refusal :=
  match s.status with
  | .running => .refused .hostCallDuringRun
  | .idle => acceptedCall c s
  | .halted => acceptedCall c s
  | .failed _ => acceptedCall c s

end Sys2Proof.Machine
end

