-- ==== Sys2Proof/Safety.lean ====
section
/-! DEFINITION. The terms claims are stated in: the machine's invariant, and what a run's end is. -/

namespace Sys2Proof.Machine

/-- Bits 3..7 are 0 (10_state.md R27) and `LT` and `GT` are not both set (R28). -/
abbrev FlagsLegal (f : FlagsByte) : Prop :=
  f.toNat < 8 ∧ ¬ (f.getLsbD ltBit = true ∧ f.getLsbD gtBit = true)

/-- The errors a run can end with, each with the payload its cause gives it (60_exceptions.md R210 to
R214): `InvalidRegister` is not among them (R212). -/
def RunErrorLegal : RunError → Prop
  | .invalidMemoryLocation addr => 4096 ≤ addr ∧ addr ≤ 65535
  | .invalidRegister _ => False
  | .invalidOpcode op w => decode w = .invalidOpcode op
  | .divisionByZero => True

/-- A status that a run can have (10_state.md R35). -/
def StatusLegal : Status → Prop
  | .idle => True
  | .running => True
  | .halted => True
  | .failed e => RunErrorLegal e

/-- The invariant of the machine: the pc is 0..4096 (R25), the flags byte is legal (R27, R28), the memory
keeps its canonical form inside the address space, and the status is one a run can have. -/
structure Inv (s : State) : Prop where
  pc_le : s.pc.toNat ≤ 4096
  flags_legal : FlagsLegal s.flags
  mem_wf : s.mem.wf
  status_legal : StatusLegal s.status

/-- A run has ended (40_engine_cycle.md R109). -/
def Ended (s : State) : Prop := s.status = .halted ∨ ∃ e, s.status = .failed e

/-- The two states differ in the overflow bit at most. -/
structure SameButOverflow (s s' : State) : Prop where
  regs_eq : s'.regs = s.regs
  pc_eq : s'.pc = s.pc
  mem_eq : s'.mem = s.mem
  status_eq : s'.status = s.status
  lt_eq : s'.lt = s.lt
  gt_eq : s'.gt = s.gt
  high_eq : ∀ i, 3 ≤ i → s'.flags.getLsbD i = s.flags.getLsbD i

/-- Everything is kept but the registers and flag bits listed; the pc may change. Memory is compared by
reading every address. -/
structure Frame (regs : List RegField) (flagBits : List Nat) (s s' : State) : Prop where
  reg_eq : ∀ r, r ∉ regs → s'.readReg r = s.readReg r
  flag_eq : ∀ i, i ∉ flagBits → s'.flags.getLsbD i = s.flags.getLsbD i
  mem_eq : ∀ a, s'.mem.get a = s.mem.get a
  status_eq : s'.status = s.status

/-- A family-0 word: bit 15 is 0, then the opcode, then memloc (30_encoding.md R72). -/
def family0Word (op : BitVec 3) (m : Memloc) : Word := 0#1 ++ op ++ m

/-- A family-1 word: bit 15 is 1, then the opfield, the unused bit 8, `s` and `t` (30_encoding.md R73). -/
def family1Word (opfield : BitVec 6) (x : BitVec 1) (s t : RegField) : Word := 1#1 ++ opfield ++ x ++ s ++ t

/-- The registers an instruction reads (10_state.md R22). -/
def registersRead : Instr → List RegField
  | .halt _ => []
  | .noop _ => []
  | .jmp _ => []
  | .jeq _ => []
  | .jgt _ => []
  | .jlt _ => []
  | .setreg _ _ => []
  | .load _ _ => []
  | .store s _ => [s]
  | .add s t => [s, t]
  | .sub s t => [s, t]
  | .mul s t => [s, t]
  | .div s t => [s, t]
  | .cmp s t => [s, t]
  | .and s t => [s, t]
  | .or s t => [s, t]
  | .xor s t => [s, t]
  | .shl _ t => [t]
  | .shr _ t => [t]
  | .not _ t => [t]

/-- The registers an instruction writes when it completes (10_state.md R22). -/
def registersWritten : Instr → List RegField
  | .halt _ => []
  | .noop _ => []
  | .jmp _ => []
  | .jeq _ => []
  | .jgt _ => []
  | .jlt _ => []
  | .setreg _ t => [t]
  | .load _ t => [t]
  | .store _ _ => []
  | .add _ t => [t]
  | .sub _ t => [t]
  | .mul _ t => [t]
  | .div _ t => [t]
  | .cmp _ _ => []
  | .and _ t => [t]
  | .or _ t => [t]
  | .xor _ t => [t]
  | .shl _ t => [t]
  | .shr _ t => [t]
  | .not _ t => [t]

end Sys2Proof.Machine
end

