-- ==== Sys2Proof/Certificates/Slice0/Obligations.lean ====
section
/-! DEFINITION. The statements for the provers. Words are built by `family0Word` and `family1Word`
(30_encoding.md R72, R73), memory is read by `Memory.get`, and `Frame` says what an instruction keeps. The
opcode numbers in the words are the spec's decision D1 (log entry 1). -/

open Sys2Proof Sys2Proof.Machine

/-! ### Encoding -/

/-- Words written out from the table of 30_encoding.md R80 and the vectors K1 to K21. Sanity only. -/
def Obligations.SampleWordsDecodeByTheOpcodeTable : Prop :=
  decode 0x0ABC = .instr (.halt 0xABC) ∧ decode 0x2ABC = .instr (.jmp 0xABC) ∧
  decode 0x5800 = .instr (.jlt 0x800) ∧ decode 0x8323 = .instr (.setreg 2 3) ∧
  decode 0x8610 = .instr (.store 1 0) ∧ decode 0x8835 = .instr (.add 3 5) ∧
  decode 0x9001 = .instr (.cmp 0 1) ∧ decode 0x98F1 = .instr (.shl 15 1) ∧
  decode 0x9C0F = .instr (.not 0 15) ∧ decode 0x6000 = .invalidOpcode 6 ∧
  decode 0x8000 = .invalidOpcode 7 ∧ decode 0xFFFF = .invalidOpcode 70

/-- R75: what Decode makes of every word, by the word's value. It never fails, and the opcode is 0..70. -/
def Obligations.DecodedFieldsAreTheWordsBits : Prop :=
  ∀ w : Word,
    (w.toNat < 0x8000 →
      decodeFields w = { opcode := w.toNat / 4096, s := 0, t := 0, memloc := w.toNat % 4096 }) ∧
    (0x8000 ≤ w.toNat →
      decodeFields w =
        { opcode := w.toNat / 512 % 64 + 7, s := w.toNat / 16 % 16, t := w.toNat % 16, memloc := 0 }) ∧
    (decodeFields w).opcode ≤ 70

/-- R77: the word Encode builds for every opcode of its domain, and what it leaves out. -/
def Obligations.EncodeBuildsTheFamilysWord : Prop :=
  ∀ o s t m : Nat, o ≤ 21 →
    encodeFields { opcode := o, s := s, t := t, memloc := m } =
      some (if o < 8 then family0Word (BitVec.ofNat 3 o) (BitVec.ofNat 12 m)
        else family1Word (BitVec.ofNat 6 (o - 7)) 0 (BitVec.ofNat 4 s) (BitVec.ofNat 4 t))

/-- R78: wide operands are masked. That an opcode above 21 is refused is the spec's decision D21 (log entry 18). -/
def Obligations.EncodeMasksOperandsAndRefusesOtherOpcodes : Prop :=
  (∀ f : Fields, encodeFields f = none ↔ 21 < f.opcode) ∧
  ∀ o s t m : Nat,
    encodeFields { opcode := o, s := s, t := t, memloc := m } =
      encodeFields { opcode := o, s := s % 16, t := t % 16, memloc := m % 4096 }

/-- The round trip of the codec, in both directions, and where it fails (30_encoding.md section 2). That bit 8
is dropped (third and fourth clauses) is the spec's decision D3 (log entry 3), that an opfield of 15 or more
does not encode (third clause) its decision D21 (log entry 18), and the opcode numbers its decision D1 (log
entry 1). The fourth and fifth clauses, that Decode is not injective and that HALT and NOOP ignore their
`memloc`, are an inference the spec marks as its own. -/
def Obligations.CodecRoundTripsExactlyWhereItShould : Prop :=
  (∀ f : Fields, f.opcode ≤ 21 → f.s < 16 → f.t < 16 → f.memloc < 4096 →
    (f.opcode < 8 → f.s = 0 ∧ f.t = 0) → (8 ≤ f.opcode → f.memloc = 0) →
    ∃ w, encodeFields f = some w ∧ decodeFields w = f) ∧
  (∀ w : Word, w.getLsbD 15 = false → encodeFields (decodeFields w) = some w) ∧
  (∀ w : Word, w.getLsbD 15 = true →
    (encodeFields (decodeFields w) = some w ↔
      w.getLsbD 8 = false ∧ 1 ≤ (w.extractLsb' 9 6).toNat ∧ (w.extractLsb' 9 6).toNat ≤ 14)) ∧
  (decode 0x8200 = .instr (.setreg 0 0) ∧ decode 0x8300 = .instr (.setreg 0 0)) ∧
  (∀ (m m' : Memloc) (st : State),
    exec (.halt m) st = exec (.halt m') st ∧ exec (.noop m) st = exec (.noop m') st ∧
    (m ≠ m' → decode (family0Word 0 m) ≠ decode (family0Word 0 m') ∧
      decode (family0Word 1 m) ≠ decode (family0Word 1 m')))

/-- Decode and encode agree on every instruction, with every operand at every value. -/
def Obligations.DecodingAnEncodingGivesTheInstruction : Prop :=
  ∀ i : Instr, decode (encode i) = .instr i

/-- The opcode map by word value: which words are which instruction, and which are invalid with which
opcode (30_encoding.md sections 3 and 5). The numbering is decision D1, the invalid words D2 (log entries 1, 2). -/
def Obligations.OpcodeMapByWordValue : Prop :=
  ∀ w : Word,
    (w.toNat < 0x6000 → ∃ i, decode w = .instr i ∧
      some i.mnemonic =
        ([.halt, .noop, .jmp, .jeq, .jgt, .jlt] : List Config.Mnemonic)[w.toNat / 0x1000]?) ∧
    (0x6000 ≤ w.toNat → w.toNat < 0x8200 →
      decode w = .invalidOpcode (if w.toNat < 0x7000 then 6 else 7)) ∧
    (0x8200 ≤ w.toNat → w.toNat < 0x9E00 → ∃ i, decode w = .instr i ∧
      some i.mnemonic =
        ([.setreg, .load, .store, .add, .sub, .mul, .div, .cmp, .and, .or, .xor, .shl, .shr, .not] :
          List Config.Mnemonic)[(w.toNat - 0x8200) / 0x200]?) ∧
    (0x9E00 ≤ w.toNat → decode w = .invalidOpcode (w.toNat / 512 % 64 + 7))

/-- Bit 8 of a family-1 word is ignored by Decode and written 0 by Encode: the spec's decision D3 (log entry 3). -/
def Obligations.BitEightIsIgnoredAndWrittenZero : Prop :=
  (∀ w w' : Word, w.getLsbD 15 = true → (∀ i, i ≠ 8 → w'.getLsbD i = w.getLsbD i) → decode w' = decode w) ∧
  ∀ i : Instr, (encode i).getLsbD 15 = true → (encode i).getLsbD 8 = false

/-- The fields an instruction does not use may hold any value (30_encoding.md section 4). Sanity only. -/
def Obligations.UnusedFieldsHaveNoEffect : Prop :=
  ∀ (st : State) (s s' t t' : RegField) (m m' : Memloc),
    exec (.halt m) st = exec (.halt m') st ∧ exec (.noop m) st = exec (.noop m') st ∧
    exec (.setreg s t) st = exec (.setreg s' t) st ∧ exec (.load s t) st = exec (.load s' t) st ∧
    exec (.store s t) st = exec (.store s t') st ∧ exec (.not s t) st = exec (.not s' t) st

/-! ### Control flow -/

/-- R120. -/
def Obligations.HaltEndsTheRunInSuccess : Prop :=
  ∀ (m : Memloc) (st : State),
    decode (family0Word 0 m) = .instr (.halt m) ∧
    exec (.halt m) st = .next { st with status := .halted }

/-- R121. -/
def Obligations.NoopChangesNothing : Prop :=
  ∀ (m : Memloc) (st : State),
    decode (family0Word 1 m) = .instr (.noop m) ∧ exec (.noop m) st = .next st

/-- R122. -/
def Obligations.JmpGoesToItsTarget : Prop :=
  ∀ (m : Memloc) (st : State),
    decode (family0Word 2 m) = .instr (.jmp m) ∧
    exec (.jmp m) st = .next { st with pc := BitVec.ofNat 16 m.toNat }

/-- R123: taken when neither `GT` (bit 2) nor `LT` (bit 1) is set. -/
def Obligations.JeqJumpsIfEqual : Prop :=
  ∀ (m : Memloc) (st : State),
    decode (family0Word 3 m) = .instr (.jeq m) ∧
    exec (.jeq m) st = .next { st with
      pc := if st.flags.getLsbD 2 = false ∧ st.flags.getLsbD 1 = false then BitVec.ofNat 16 m.toNat
        else st.pc }

/-- R124. -/
def Obligations.JgtJumpsIfGreater : Prop :=
  ∀ (m : Memloc) (st : State),
    decode (family0Word 4 m) = .instr (.jgt m) ∧
    exec (.jgt m) st = .next { st with
      pc := if st.flags.getLsbD 2 = true then BitVec.ofNat 16 m.toNat else st.pc }

/-- R125. -/
def Obligations.JltJumpsIfLesser : Prop :=
  ∀ (m : Memloc) (st : State),
    decode (family0Word 5 m) = .instr (.jlt m) ∧
    exec (.jlt m) st = .next { st with
      pc := if st.flags.getLsbD 1 = true then BitVec.ofNat 16 m.toNat else st.pc }

/-! ### Data transfer. On entry the pc is the address of the inline operand word. -/

/-- R140: the literal goes to the target, or the operand fetch fails and nothing else happens. -/
def Obligations.SetregLoadsItsInlineLiteral : Prop :=
  ∀ (s t : RegField) (st : State),
    (∀ x, decode (family1Word 1 x s t) = .instr (.setreg s t)) ∧
    (st.pc.toNat < 4096 → ∃ st', exec (.setreg s t) st = .next st' ∧
      st'.readReg t = st.mem.get st.pc.toNat ∧ st'.pc.toNat = st.pc.toNat + 1 ∧ Frame [t] [] st st') ∧
    (4096 ≤ st.pc.toNat → exec (.setreg s t) st =
      .next { st with status := .failed (.invalidMemoryLocation st.pc.toNat) })

/-- LOAD (42_data_transfer.md section LOAD): the cell at the inline address goes to the target. The pc left
by each failure is the spec's decision D5 (log entry 5). -/
def Obligations.LoadReadsTheCellAtItsInlineAddress : Prop :=
  ∀ (s t : RegField) (st : State),
    (∀ x, decode (family1Word 2 x s t) = .instr (.load s t)) ∧
    (st.pc.toNat < 4096 → operandAddress (st.mem.get st.pc.toNat) < 4096 →
      ∃ st', exec (.load s t) st = .next st' ∧
        st'.readReg t = st.mem.get (operandAddress (st.mem.get st.pc.toNat)) ∧
        st'.pc.toNat = st.pc.toNat + 1 ∧ Frame [t] [] st st') ∧
    (st.pc.toNat < 4096 → 4096 ≤ operandAddress (st.mem.get st.pc.toNat) →
      exec (.load s t) st = .next { st with
        pc := st.pc + 1
        status := .failed (.invalidMemoryLocation (operandAddress (st.mem.get st.pc.toNat))) }) ∧
    (4096 ≤ st.pc.toNat → exec (.load s t) st =
      .next { st with status := .failed (.invalidMemoryLocation st.pc.toNat) })

/-- STORE (42_data_transfer.md section STORE): the source goes to the cell at the inline address, and every
other cell is kept. The pc left by each failure is the spec's decision D5 (log entry 5). -/
def Obligations.StoreWritesTheCellAtItsInlineAddress : Prop :=
  ∀ (s t : RegField) (st : State),
    (∀ x, decode (family1Word 3 x s t) = .instr (.store s t)) ∧
    (st.pc.toNat < 4096 → operandAddress (st.mem.get st.pc.toNat) < 4096 →
      ∃ st', exec (.store s t) st = .next st' ∧
        (st.mem.wf → st'.mem.get (operandAddress (st.mem.get st.pc.toNat)) = st.readReg s) ∧
        (∀ a, a ≠ operandAddress (st.mem.get st.pc.toNat) → st'.mem.get a = st.mem.get a) ∧
        st'.pc.toNat = st.pc.toNat + 1 ∧ (∀ r, st'.readReg r = st.readReg r) ∧
        st'.flags = st.flags ∧ st'.status = st.status) ∧
    (st.pc.toNat < 4096 → 4096 ≤ operandAddress (st.mem.get st.pc.toNat) →
      exec (.store s t) st = .next { st with
        pc := st.pc + 1
        status := .failed (.invalidMemoryLocation (operandAddress (st.mem.get st.pc.toNat))) }) ∧
    (4096 ≤ st.pc.toNat → exec (.store s t) st =
      .next { st with status := .failed (.invalidMemoryLocation st.pc.toNat) })

/-! ### Arithmetic and compare -/

/-- R161. -/
def Obligations.AddWritesTheSumAndOverflow : Prop :=
  ∀ (s t : RegField) (st : State),
    (∀ x, decode (family1Word 4 x s t) = .instr (.add s t)) ∧
    ∃ st', exec (.add s t) st = .next st' ∧
      st'.readReg t = st.readReg s + st.readReg t ∧
      (st'.flags.getLsbD 0 = true ↔ 65535 < (st.readReg s).toNat + (st.readReg t).toNat) ∧
      st'.pc = st.pc ∧ Frame [t] [0] st st'

/-- SUB (43_arithmetic.md section 2): source minus target. That a borrow leaves the low 16 bits of the
two's-complement value is the spec's passage G1, from general knowledge (log entry 20). -/
def Obligations.SubWritesTheDifferenceAndBorrow : Prop :=
  ∀ (s t : RegField) (st : State),
    (∀ x, decode (family1Word 5 x s t) = .instr (.sub s t)) ∧
    ∃ st', exec (.sub s t) st = .next st' ∧
      st'.readReg t = st.readReg s - st.readReg t ∧
      (st'.flags.getLsbD 0 = true ↔ (st.readReg s).toNat < (st.readReg t).toNat) ∧
      st'.pc = st.pc ∧ Frame [t] [0] st st'

/-- R163. -/
def Obligations.MulWritesTheLowHalfAndOverflow : Prop :=
  ∀ (s t : RegField) (st : State),
    (∀ x, decode (family1Word 6 x s t) = .instr (.mul s t)) ∧
    ∃ st', exec (.mul s t) st = .next st' ∧
      st'.readReg t = st.readReg s * st.readReg t ∧
      (st'.flags.getLsbD 0 = true ↔ 65535 < (st.readReg s).toNat * (st.readReg t).toNat) ∧
      st'.pc = st.pc ∧ Frame [t] [0] st st'

/-- DIV (43_arithmetic.md section 2): the quotient of source by target, `OV` cleared. That division by 0
raises DivisionByZero with nothing written is the spec's decision D6 (log entry 6). -/
def Obligations.DivWritesTheQuotientOrTraps : Prop :=
  ∀ (s t : RegField) (st : State),
    (∀ x, decode (family1Word 7 x s t) = .instr (.div s t)) ∧
    (st.readReg t ≠ 0 → ∃ st', exec (.div s t) st = .next st' ∧
      st'.readReg t = BitVec.ofNat 16 ((st.readReg s).toNat / (st.readReg t).toNat) ∧
      st'.flags.getLsbD 0 = false ∧ st'.pc = st.pc ∧ Frame [t] [0] st st') ∧
    (st.readReg t = 0 → exec (.div s t) st = .next { st with status := .failed .divisionByZero })

/-- R165: the comparison is unsigned, and exactly one of the three predicates holds afterwards. -/
def Obligations.CmpWritesTheComparisonBits : Prop :=
  ∀ (s t : RegField) (st : State),
    (∀ x, decode (family1Word 8 x s t) = .instr (.cmp s t)) ∧
    ∃ st', exec (.cmp s t) st = .next st' ∧
      (st'.flags.getLsbD 1 = true ↔ (st.readReg s).toNat < (st.readReg t).toNat) ∧
      (st'.flags.getLsbD 2 = true ↔ (st.readReg t).toNat < (st.readReg s).toNat) ∧
      (st'.isEqual = true ↔ st.readReg s = st.readReg t) ∧
      (st'.isEqual, st'.isGreater, st'.isLesser) ∈
        [(true, false, false), (false, true, false), (false, false, true)] ∧
      st'.pc = st.pc ∧ Frame [] [1, 2] st st'

/-- 43_arithmetic.md R166: a signed 32-bit intermediate that wraps around gives the same register and the
same `OV` as the exact integer. An inference the spec marks as its own. -/
def Obligations.ArithmeticAgreesWithSigned32 : Prop :=
  ∀ (s t : RegField) (st : State) (a b : BitVec 32),
    a = (st.readReg s).setWidth 32 → b = (st.readReg t).setWidth 32 →
    (∃ st', exec (.add s t) st = .next st' ∧ st'.readReg t = (a + b).setWidth 16 ∧
      (st'.flags.getLsbD 0 = true ↔ (a + b).toInt < 0 ∨ 65535 < (a + b).toInt)) ∧
    (∃ st', exec (.sub s t) st = .next st' ∧ st'.readReg t = (a - b).setWidth 16 ∧
      (st'.flags.getLsbD 0 = true ↔ (a - b).toInt < 0 ∨ 65535 < (a - b).toInt)) ∧
    (∃ st', exec (.mul s t) st = .next st' ∧ st'.readReg t = (a * b).setWidth 16 ∧
      (st'.flags.getLsbD 0 = true ↔ (a * b).toInt < 0 ∨ 65535 < (a * b).toInt)) ∧
    (b ≠ 0 → ∃ st', exec (.div s t) st = .next st' ∧ st'.readReg t = (a / b).setWidth 16 ∧
      (st'.flags.getLsbD 0 = true ↔ (a / b).toInt < 0 ∨ 65535 < (a / b).toInt))

/-! ### Logical and shift -/

/-- R191. -/
def Obligations.AndWritesTheConjunction : Prop :=
  ∀ (s t : RegField) (st : State),
    (∀ x, decode (family1Word 9 x s t) = .instr (.and s t)) ∧
    ∃ st', exec (.and s t) st = .next st' ∧
      (∀ i, (st'.readReg t).getLsbD i = ((st.readReg s).getLsbD i && (st.readReg t).getLsbD i)) ∧
      st'.pc = st.pc ∧ Frame [t] [] st st'

/-- R192. -/
def Obligations.OrWritesTheDisjunction : Prop :=
  ∀ (s t : RegField) (st : State),
    (∀ x, decode (family1Word 10 x s t) = .instr (.or s t)) ∧
    ∃ st', exec (.or s t) st = .next st' ∧
      (∀ i, (st'.readReg t).getLsbD i = ((st.readReg s).getLsbD i || (st.readReg t).getLsbD i)) ∧
      st'.pc = st.pc ∧ Frame [t] [] st st'

/-- R193. -/
def Obligations.XorWritesTheExclusiveOr : Prop :=
  ∀ (s t : RegField) (st : State),
    (∀ x, decode (family1Word 11 x s t) = .instr (.xor s t)) ∧
    ∃ st', exec (.xor s t) st = .next st' ∧
      (∀ i, (st'.readReg t).getLsbD i = ((st.readReg s).getLsbD i ^^ (st.readReg t).getLsbD i)) ∧
      st'.pc = st.pc ∧ Frame [t] [] st st'

/-- SHL (44_logical_shift.md section SHL). That shifts write no flag is the spec's decision D7 (log entry 7). -/
def Obligations.ShlShiftsLeftByTheLiteralCount : Prop :=
  ∀ (n t : RegField) (st : State),
    (∀ x, decode (family1Word 12 x n t) = .instr (.shl n t)) ∧
    ∃ st', exec (.shl n t) st = .next st' ∧
      (st'.readReg t).toNat = (st.readReg t).toNat * 2 ^ n.toNat % 65536 ∧
      st'.pc = st.pc ∧ Frame [t] [] st st'

/-- SHR (44_logical_shift.md section SHR). That the shift is logical is an inference the spec marks as its
own; that it writes no flag is its decision D7 (log entry 7). -/
def Obligations.ShrShiftsRightByTheLiteralCount : Prop :=
  ∀ (n t : RegField) (st : State),
    (∀ x, decode (family1Word 13 x n t) = .instr (.shr n t)) ∧
    ∃ st', exec (.shr n t) st = .next st' ∧
      (st'.readReg t).toNat = (st.readReg t).toNat / 2 ^ n.toNat ∧
      st'.pc = st.pc ∧ Frame [t] [] st st'

/-- R196. -/
def Obligations.NotWritesTheComplement : Prop :=
  ∀ (s t : RegField) (st : State),
    (∀ x, decode (family1Word 14 x s t) = .instr (.not s t)) ∧
    ∃ st', exec (.not s t) st = .next st' ∧
      (st'.readReg t).toNat = 0xFFFF - (st.readReg t).toNat ∧
      st'.pc = st.pc ∧ Frame [t] [] st st'

/-! ### The engine -/

/-- A step runs the decoded instruction, with the pc already past its word (40_engine_cycle.md section 2). -/
def Obligations.StepRunsTheDecodedInstruction : Prop :=
  ∀ (st : State) (i : Instr), st.status = .running → st.pc.toNat < 4096 →
    decode (st.mem.get st.pc.toNat) = .instr i →
    step st = exec i { st with pc := st.pc + 1 }

/-- R213: a word whose opcode is none of the 20 ends the run, with the pc past it and nothing else changed. -/
def Obligations.InvalidWordEndsTheRun : Prop :=
  ∀ (st : State) (w : Word), st.status = .running → st.pc.toNat < 4096 → w = st.mem.get st.pc.toNat →
    (∀ k, opcodeNumber k ≠ (decodeFields w).opcode) →
    step st = .next { st with
      pc := st.pc + 1
      status := .failed (.invalidOpcode (decodeFields w).opcode w) }

/-- A fetch at 4096 or above ends the run and leaves the pc: the spec's decisions D4 and D5 (log entries 4, 5). -/
def Obligations.FetchPastTheEndOfMemoryEndsTheRun : Prop :=
  ∀ st : State, st.status = .running → 4096 ≤ st.pc.toNat →
    step st = .next { st with status := .failed (.invalidMemoryLocation st.pc.toNat) }

/-- A step is defined only while a run is in progress. That the model answers a fault otherwise is its own
choice (log entry 21). -/
def Obligations.NoStepOutsideARun : Prop :=
  ∀ st : State, st.status ≠ .running → step st = .fault .notRunning

/-- A machine in a run always has a next state: no word, no operand and no state stops the model. -/
def Obligations.RunningMachineAlwaysSteps : Prop :=
  ∀ st : State, st.status = .running → ∃ st', step st = .next st'

/-- HALT is the only success and an error the only other end; InvalidRegister is never the error of a run
(40_engine_cycle.md section 3). -/
def Obligations.RunEndsOnlyAtHaltOrError : Prop :=
  ∀ st st' : State, st.status = .running → step st = .next st' →
    (st'.status = .halted ↔
      st.pc.toNat < 4096 ∧ ∃ m, decode (st.mem.get st.pc.toNat) = .instr (.halt m)) ∧
    (st'.status = .running ∨ st'.status = .halted ∨
      ∃ e, st'.status = .failed e ∧ ∀ index, e ≠ .invalidRegister index)

/-- Which error each instruction can raise after dispatch, and when (60_exceptions.md section 1, an
inference the spec marks as its own). -/
def Obligations.ErrorsOfEachInstruction : Prop :=
  ∀ (i : Instr) (st st' : State) (e : RunError), st.status = .running → exec i st = .next st' →
    (st'.status = .failed e ↔
      match i with
      | .setreg _ _ => 4096 ≤ st.pc.toNat ∧ e = .invalidMemoryLocation st.pc.toNat
      | .load _ _ | .store _ _ =>
        (4096 ≤ st.pc.toNat ∧ e = .invalidMemoryLocation st.pc.toNat) ∨
        (st.pc.toNat < 4096 ∧ 4096 ≤ operandAddress (st.mem.get st.pc.toNat) ∧
          e = .invalidMemoryLocation (operandAddress (st.mem.get st.pc.toNat)))
      | .div _ t => st.readReg t = 0 ∧ e = .divisionByZero
      | _ => False)

/-- The state a failed step leaves: registers, flags and memory as they were, and the pc by the table of
60_exceptions.md section 2. The pc values are the spec's decision D5 (log entry 5). -/
def Obligations.FailedStepLeavesTheStateAsItWas : Prop :=
  ∀ (st st' : State) (e : RunError), st.status = .running → st.pc.toNat ≤ 4096 →
    step st = .next st' → st'.status = .failed e →
    st'.regs = st.regs ∧ st'.flags = st.flags ∧ st'.mem = st.mem ∧
    st'.pc.toNat =
      if st.pc.toNat = 4096 then 4096
      else match decode (st.mem.get st.pc.toNat) with
        | .invalidOpcode _ => st.pc.toNat + 1
        | .instr i =>
          if i.hasInlineOperand = true then (if st.pc.toNat = 4095 then 4096 else st.pc.toNat + 2)
          else st.pc.toNat + 1

/-- The pc after a step that does not fail, for every instruction (10_state.md section 3, an inference the
spec marks as its own). -/
def Obligations.PcAfterEachInstruction : Prop :=
  ∀ (st st' : State) (i : Instr), st.status = .running → st.pc.toNat < 4096 →
    decode (st.mem.get st.pc.toNat) = .instr i → step st = .next st' →
    (∀ e, st'.status ≠ .failed e) →
    st'.pc.toNat =
      match i with
      | .jmp m => m.toNat
      | .jeq m => if st.flags.getLsbD 2 = false ∧ st.flags.getLsbD 1 = false then m.toNat else st.pc.toNat + 1
      | .jgt m => if st.flags.getLsbD 2 = true then m.toNat else st.pc.toNat + 1
      | .jlt m => if st.flags.getLsbD 1 = true then m.toNat else st.pc.toNat + 1
      | .setreg _ _ | .load _ _ | .store _ _ => st.pc.toNat + 2
      | _ => st.pc.toNat + 1

/-- Who writes which flag: ADD, SUB, MUL and DIV write `OV` only, CMP writes `LT` and `GT` only, and no
other instruction writes a flag (10_state.md section 4; for the logical and shift family the spec's decision
D7, log entry 7). -/
def Obligations.FlagsAreWrittenOnlyByTheirWriters : Prop :=
  ∀ (i : Instr) (st st' : State), exec i st = .next st' →
    (i.mnemonic ∉ ([.add, .sub, .mul, .div] : List Config.Mnemonic) →
      st'.flags.getLsbD 0 = st.flags.getLsbD 0) ∧
    (i.mnemonic ≠ .cmp →
      st'.flags.getLsbD 1 = st.flags.getLsbD 1 ∧ st'.flags.getLsbD 2 = st.flags.getLsbD 2) ∧
    ∀ b, 3 ≤ b → st'.flags.getLsbD b = st.flags.getLsbD b

/-- STORE is the only instruction that changes memory, and it changes the one cell its operand word names
(20_memory.md section 1). -/
def Obligations.OnlyStoreChangesMemory : Prop :=
  ∀ (i : Instr) (st st' : State), exec i st = .next st' →
    (i.mnemonic ≠ .store → ∀ a, st'.mem.get a = st.mem.get a) ∧
    (i.mnemonic = .store →
      ∀ a, a ≠ operandAddress (st.mem.get st.pc.toNat) → st'.mem.get a = st.mem.get a)

/-- R22: an instruction changes no register but the one it writes, and a register it does not read has no
influence on anything else: with another value there, the outcome is the same but for that register. That
register holds the new value if the instruction does not write it or fails, and what the instruction writes
there if it completes and writes it. -/
def Obligations.RegistersReadAndWrittenByEachInstruction : Prop :=
  ∀ (i : Instr) (st st' : State), st.status = .running → exec i st = .next st' →
    (∀ r, r ∉ registersWritten i → st'.readReg r = st.readReg r) ∧
    ∀ (r : RegField) (v : Word), r ∉ registersRead i →
      ∃ u, exec i (st.writeReg r v) = .next u ∧
        u.pc = st'.pc ∧ u.flags = st'.flags ∧ u.mem = st'.mem ∧ u.status = st'.status ∧
        (∀ q, q ≠ r → u.readReg q = st'.readReg q) ∧
        (r ∉ registersWritten i → u.readReg r = v) ∧
        (∀ e, st'.status = .failed e → u.readReg r = v) ∧
        ((∀ e, st'.status ≠ .failed e) → r ∈ registersWritten i → u.readReg r = st'.readReg r)

/-- No instruction reads the overflow bit (10_state.md section 4): two machines that differ in it at most
take steps to machines that differ in it at most. -/
def Obligations.OverflowBitIsNeverRead : Prop :=
  ∀ a b : State, SameButOverflow a b → a.status = .running →
    ∃ a' b', step a = .next a' ∧ step b = .next b' ∧ SameButOverflow a' b'

/-- A STORE over the next instruction's word is seen by the very next fetch (20_memory.md section 4, an
inference the spec marks as its own). -/
def Obligations.StoreIsSeenByTheNextFetch : Prop :=
  ∀ (s t : RegField) (st : State), st.mem.wf → st.status = .running → st.pc.toNat + 1 < 4096 →
    operandAddress (st.mem.get st.pc.toNat) = st.pc.toNat + 1 →
    ∃ st', exec (.store s t) st = .next st' ∧
      ∀ i, decode (st.readReg s) = .instr i → step st' = exec i { st' with pc := st'.pc + 1 }

/-! ### The invariant -/

/-- The invariant holds at reset. Sanity only. -/
def Obligations.ResetMeetsTheInvariant : Prop := Inv State.reset

/-- Every step keeps the invariant: the pc in 0..4096, the flags byte legal, the memory canonical, the
status one a run can have with its error's payload true to its cause. -/
def Obligations.EveryStepKeepsTheInvariant : Prop :=
  ∀ st st' : State, Inv st → step st = .next st' → Inv st'

/-- Every host transaction keeps the invariant. -/
def Obligations.EveryHostCallKeepsTheInvariant : Prop :=
  ∀ (c : HostCall) (st st' : State) (r : Reply), Inv st → hostCall c st = .next (st', r) → Inv st'

/-! ### State operations -/

/-- What reset leaves (10_state.md section 7), and that it reads as Equal. That the status is Idle and that
Equal holds are inferences the spec marks as its own (log entries 24, 25). -/
def Obligations.ResetStateIsAllZeroWithThePcAtStart : Prop :=
  (∀ r, State.reset.readReg r = 0) ∧ State.reset.pc = 256 ∧ State.reset.flags = 0 ∧
  (∀ a, State.reset.mem.get a = 0) ∧ State.reset.status = .idle ∧
  State.reset.isEqual = true ∧ State.reset.isGreater = false ∧ State.reset.isLesser = false

/-- R29, R30, R31: the predicates, and that each setter touches its own bits only. -/
def Obligations.FlagSettersTouchOnlyTheirBits : Prop :=
  ∀ (st : State) (i : Nat),
    (st.isEqual = true ↔ st.flags.getLsbD 2 = false ∧ st.flags.getLsbD 1 = false) ∧
    (st.isGreater = true ↔ st.flags.getLsbD 2 = true) ∧
    (st.isLesser = true ↔ st.flags.getLsbD 1 = true) ∧
    st.setEqual.flags.getLsbD i = (if i = 2 ∨ i = 1 then false else st.flags.getLsbD i) ∧
    st.setGreater.flags.getLsbD i =
      (if i = 2 then true else if i = 1 then false else st.flags.getLsbD i) ∧
    st.setLesser.flags.getLsbD i =
      (if i = 2 then false else if i = 1 then true else st.flags.getLsbD i) ∧
    st.setOverflow.flags.getLsbD i = (if i = 0 then true else st.flags.getLsbD i) ∧
    st.clearOverflow.flags.getLsbD i = (if i = 0 then false else st.flags.getLsbD i)

/-- R51, R52: the bounds check, read after write, and that a write touches one cell. -/
def Obligations.MemoryAccessIsBoundsChecked : Prop :=
  ∀ (st : State) (a : Nat) (v : Word),
    (4096 ≤ a →
      memRead st a = .error (.invalidMemoryLocation a) ∧ memWrite st a v = .error (.invalidMemoryLocation a)) ∧
    (a < 4096 → memRead st a = .ok (st.mem.get a) ∧
      ∃ st', memWrite st a v = .ok st' ∧ (st.mem.wf → memRead st' a = .ok v) ∧
        (∀ b, b ≠ a → memRead st' b = memRead st b) ∧
        st'.regs = st.regs ∧ st'.pc = st.pc ∧ st'.flags = st.flags ∧ st'.status = st.status)

/-! ### Runs and the host -/

/-- `Run()` sets the pc to 256 and the status to Running and nothing else, from any state, and steps until the
status is no longer Running (40_engine_cycle.md section 1). A final state within a budget is one that the steps
reach, and every final state that `n` steps reach is answered within the budget `n`. That the host's call
answers `.started`, where the spec's returns Halted or Failed(e), is the model's choice (log entry 29): the
result is the status of the final state. That a run is followed within a budget is the spec's decision D20 (log
entry 17). -/
def Obligations.RunStartsAt256AndStepsToItsEnd : Prop :=
  ∀ st : State,
    startRun st = { st with pc := 256, status := .running } ∧
    (st.status ≠ .running → hostCall .run st = .next (startRun st, .started)) ∧
    (∀ (budget : Nat) (final : State), hostRun budget st = some final →
      Ended final ∧ ∃ n, n ≤ budget ∧ core.run n (startRun st) = .next final) ∧
    ∀ (n : Nat) (final : State), core.run n (startRun st) = .next final → Ended final →
      hostRun n st = some final

/-- A step budget is no outcome of the hardware: a run that has ended within one budget ends in the same
state within every greater one (70_reset_and_hazards.md section 5). -/
def Obligations.GreaterBudgetsDoNotChangeTheFinalState : Prop :=
  ∀ (st final : State) (budget more : Nat), budget ≤ more → hostRun budget st = some final →
    hostRun more st = some final

/-- A run on a fresh machine halts at once with the pc at 257 (70_reset_and_hazards.md section 1, an
inference the spec marks as its own). Sanity only. -/
def Obligations.RunOnAFreshMachineHaltsAt257 : Prop :=
  hostRun 1 State.reset = some { State.reset with pc := 257, status := .halted }

/-- The host's single-cell and single-register accesses (10_state.md section 2, 20_memory.md section 5): in
range they read or write the one slot, out of range they return the error and change nothing. That values are
16-bit words is the spec's decision D22 (log entry 19). -/
def Obligations.HostAccessesAreBoundsChecked : Prop :=
  ∀ (st : State) (a : Nat) (v : Word), st.status ≠ .running →
    (16 ≤ a →
      hostCall (.getRegister a) st = .next (st, .error (.invalidRegister a)) ∧
      hostCall (.setRegister a v) st = .next (st, .error (.invalidRegister a))) ∧
    (a < 16 →
      hostCall (.getRegister a) st = .next (st, .word (st.readReg (BitVec.ofNat 4 a))) ∧
      ∃ st', hostCall (.setRegister a v) st = .next (st', .ok) ∧
        (∀ q : RegField, st'.readReg q = if q.toNat = a then v else st.readReg q) ∧
        st'.pc = st.pc ∧ st'.flags = st.flags ∧ st'.mem = st.mem ∧ st'.status = st.status) ∧
    (4096 ≤ a →
      hostCall (.getMemory a) st = .next (st, .error (.invalidMemoryLocation a)) ∧
      hostCall (.setMemory a v) st = .next (st, .error (.invalidMemoryLocation a))) ∧
    (a < 4096 →
      hostCall (.getMemory a) st = .next (st, .word (st.mem.get a)) ∧
      ∃ st', hostCall (.setMemory a v) st = .next (st', .ok) ∧
        (st.mem.wf → st'.mem.get a = v) ∧ (∀ b, b ≠ a → st'.mem.get b = st.mem.get b) ∧
        st'.regs = st.regs ∧ st'.pc = st.pc ∧ st'.flags = st.flags ∧ st'.status = st.status)

/-- `Load` writes the words that fit, in order and not relocated, and then fails at the first that does not
fit; nothing else changes. What happens past the end is the spec's decision D16 (log entry 15). -/
def Obligations.LoadWritesTheWordsThatFit : Prop :=
  ∀ (st : State) (base : Nat) (words : List Word), st.mem.wf → st.status ≠ .running →
    ∃ st' r, hostCall (.load base words) st = .next (st', r) ∧
      (∀ k v, words[k]? = some v → base + k < 4096 → st'.mem.get (base + k) = v) ∧
      (∀ a, a < base ∨ base + words.length ≤ a ∨ 4096 ≤ a → st'.mem.get a = st.mem.get a) ∧
      r = (if words = [] ∨ base + words.length ≤ 4096 then Reply.ok
        else Reply.error (.invalidMemoryLocation (max base 4096))) ∧
      st'.regs = st.regs ∧ st'.pc = st.pc ∧ st'.flags = st.flags ∧ st'.status = st.status

/-- R227: an error of a host operation is InvalidMemoryLocation or InvalidRegister, is returned to the
caller, and changes no status; the failed access writes nothing. -/
def Obligations.HostErrorsAreReturnedAndChangeNoStatus : Prop :=
  ∀ (c : HostCall) (st st' : State) (e : RunError), hostCall c st = .next (st', .error e) →
    st'.status = st.status ∧ st'.regs = st.regs ∧ st'.pc = st.pc ∧ st'.flags = st.flags ∧
    ((∃ a v, 4096 ≤ a ∧ e = .invalidMemoryLocation a ∧ (c = .getMemory a ∨ c = .setMemory a v) ∧
        st'.mem = st.mem) ∨
     (∃ a base words, 4096 ≤ a ∧ e = .invalidMemoryLocation a ∧ c = .load base words ∧
        base ≤ a ∧ st'.mem.get a = st.mem.get a) ∨
     (∃ index v, 16 ≤ index ∧ e = .invalidRegister index ∧
        (c = .getRegister index ∨ c = .setRegister index v) ∧ st'.mem = st.mem))

/-- What the host can observe, with nothing changed: the flag getters, the pc, the memory size and the
codec (10_state.md section 4, 70_reset_and_hazards.md section 3). That Encode of an opcode above 21 is refused
is the spec's decision D21 (log entry 18). -/
def Obligations.HostObservationsReadTheState : Prop :=
  ∀ (st : State) (w : Word), st.status ≠ .running →
    hostCall .getOverflow st = .next (st, .bool (st.flags.getLsbD 0)) ∧
    hostCall .getEqual st = .next (st, .bool (!st.flags.getLsbD 2 && !st.flags.getLsbD 1)) ∧
    hostCall .getGreater st = .next (st, .bool (st.flags.getLsbD 2)) ∧
    hostCall .getLesser st = .next (st, .bool (st.flags.getLsbD 1)) ∧
    hostCall .programCounter st = .next (st, .number st.pc.toNat) ∧
    hostCall .memorySize st = .next (st, .number 4096) ∧
    hostCall (.decode w) st = .next (st, .fields (decodeFields w)) ∧
    ∀ f : Fields,
      (∀ x, encodeFields f = some x → hostCall (.encode f) st = .next (st, .word x)) ∧
      (f.opcode ≤ 21 → ∃ x, hostCall (.encode f) st = .next (st, .word x)) ∧
      (21 < f.opcode → hostCall (.encode f) st = .refused .encodeOutsideDomain)

/-- A host operation while a run is in progress has no meaning: the spec's decision D15 (log entry 14). -/
def Obligations.HostCallsDuringARunAreRefused : Prop :=
  ∀ (c : HostCall) (st : State), st.status = .running → hostCall c st = .refused .hostCallDuringRun

/-- The model's way to place an instruction: the next step runs it, with its operand word after it. The
placing is the model's own (log entry 22). -/
def Obligations.PlacedInstructionRunsInTheNextStep : Prop :=
  ∀ (st : State) (nbits w : Nat) (i : Instr), st.mem.wf → decodeTableWord nbits w = some i →
    ∃ st', step (st.withFetchWord nbits w) = exec i st' ∧
      st'.status = .running ∧ st'.pc.toNat < 4096 ∧
      st'.mem.get st'.pc.toNat = tableSecondWord nbits w ∧
      st'.regs = st.regs ∧ st'.flags = st.flags ∧
      (st.pc.toNat + 2 ≤ 4096 → st'.pc = st.pc + 1)
end

