-- ==== Sys2Proof/Laws/Codec.lean ====
section
/-! SUPPORT. The opcode numbers name the 20 mnemonics without overlap, and the small laws of the codec. -/

namespace Sys2Proof

open Config

theorem mem_mnemonics (k : Mnemonic) : k ∈ mnemonics := by cases k <;> decide

/-- Each mnemonic is what its number names, so no two share a number. -/
@[simp] theorem mnemonicOf_opcodeNumber (k : Mnemonic) : mnemonicOf (opcodeNumber k) = some k := by
  cases k <;> decide

theorem mnemonicOf_eq_some {op : Nat} {k : Mnemonic} (h : mnemonicOf op = some k) : op = opcodeNumber k := by
  have := List.find?_some h
  exact (beq_iff_eq.mp this).symm

theorem mnemonicOf_eq_none {op : Nat} (h : mnemonicOf op = none) (k : Mnemonic) : opcodeNumber k ≠ op := by
  have := List.find?_eq_none.mp h k (mem_mnemonics k)
  simpa using this

theorem opcodeNumber_injective {k k' : Mnemonic} (h : opcodeNumber k = opcodeNumber k') : k = k' := by
  have := mnemonicOf_opcodeNumber k
  rw [h, mnemonicOf_opcodeNumber] at this
  exact (Option.some.inj this).symm

theorem opcodeNumber_le (k : Mnemonic) : opcodeNumber k ≤ maxOpcode := by cases k <;> decide

@[simp] theorem bit8Rejected_eq (w : Word) : bit8Rejected w = false := rfl

theorem decode_eq_dispatch (w : Word) : decode w = dispatch (decodeFields w) := by
  simp [decode]

/-- A word's verdict is invalid exactly when its opcode names no mnemonic, and it carries that opcode. -/
theorem decode_eq_invalid {w : Word} {op : Nat} (h : decode w = .invalidOpcode op) :
    op = (decodeFields w).opcode ∧ mnemonicOf op = none := by
  rw [decode_eq_dispatch, dispatch] at h
  split at h
  · cases h
  · rename_i hn
    cases h
    exact ⟨rfl, hn⟩

@[simp] theorem mkInstr_mnemonic (k : Mnemonic) (s t : RegField) (m : Memloc) :
    (mkInstr k s t m).mnemonic = k := by
  cases k <;> rfl

/-- An instruction is what its mnemonic and fields make. -/
theorem mkInstr_self (i : Instr) : mkInstr i.mnemonic i.regFields.1 i.regFields.2 i.memloc = i := by
  cases i <;> rfl

/-- A word that decodes to an instruction carries that instruction's opcode number. -/
theorem decode_eq_instr {w : Word} {i : Instr} (h : decode w = .instr i) :
    (decodeFields w).opcode = opcodeNumber i.mnemonic := by
  rw [decode_eq_dispatch, dispatch] at h
  split at h
  · rename_i k hk
    injection h with h
    rw [← h, mkInstr_mnemonic]
    exact mnemonicOf_eq_some hk
  · cases h

end Sys2Proof
end

