-- ==== Sys2Proof/Laws/State.lean ====
section
/-! SUPPORT. One lemma per field per update of State, so that no later proof unfolds a record update. -/

namespace Sys2Proof.Machine

variable (s : State) (r q : RegField) (v : Word) (st : Status) (f : FlagsByte)

/-! ### Registers -/

@[simp] theorem readReg_writeReg :
    (s.writeReg r v).readReg q = if q = r then v else s.readReg q := by
  simp [State.readReg, State.writeReg, Vector.getElem_set, BitVec.toNat_inj, eq_comm]

theorem readReg_writeReg_same : (s.writeReg r v).readReg r = v := by simp

theorem readReg_writeReg_other (h : q ≠ r) : (s.writeReg r v).readReg q = s.readReg q := by simp [h]

/-- Two register files that read alike are equal. -/
theorem regs_ext {s s' : State} (h : ∀ r, s'.readReg r = s.readReg r) : s'.regs = s.regs := by
  refine Vector.ext fun i hi => ?_
  have h' := h (BitVec.ofNat 4 i)
  simp only [State.readReg, BitVec.toNat_ofNat] at h'
  have e : i % 2 ^ 4 = i := Nat.mod_eq_of_lt hi
  simpa only [e] using h'

@[simp] theorem writeReg_pc : (s.writeReg r v).pc = s.pc := rfl
@[simp] theorem writeReg_flags : (s.writeReg r v).flags = s.flags := rfl
@[simp] theorem writeReg_mem : (s.writeReg r v).mem = s.mem := rfl
@[simp] theorem writeReg_status : (s.writeReg r v).status = s.status := rfl

/-! ### pc -/

@[simp] theorem setPc_pc : (s.setPc v).pc = v := rfl
@[simp] theorem setPc_regs : (s.setPc v).regs = s.regs := rfl
@[simp] theorem setPc_flags : (s.setPc v).flags = s.flags := rfl
@[simp] theorem setPc_mem : (s.setPc v).mem = s.mem := rfl
@[simp] theorem setPc_status : (s.setPc v).status = s.status := rfl
@[simp] theorem setPc_readReg : (s.setPc v).readReg r = s.readReg r := rfl

@[simp] theorem nextPc_eq (pc : Word) : nextPc pc = pc + 1 := rfl

@[simp] theorem advancePc_pc : s.advancePc.pc = s.pc + 1 := rfl
@[simp] theorem advancePc_regs : s.advancePc.regs = s.regs := rfl
@[simp] theorem advancePc_flags : s.advancePc.flags = s.flags := rfl
@[simp] theorem advancePc_mem : s.advancePc.mem = s.mem := rfl
@[simp] theorem advancePc_status : s.advancePc.status = s.status := rfl
@[simp] theorem advancePc_readReg : s.advancePc.readReg r = s.readReg r := rfl

/-- A pc that names a cell is followed by its successor, without wrap-around. -/
theorem toNat_nextPc (h : s.pc.toNat < 4096) : (s.pc + 1).toNat = s.pc.toNat + 1 := by
  have : s.pc.toNat < 4096 := h
  rw [BitVec.toNat_add]
  simp
  omega

/-! ### Status -/

@[simp] theorem setStatus_status : (s.setStatus st).status = st := rfl
@[simp] theorem setStatus_pc : (s.setStatus st).pc = s.pc := rfl
@[simp] theorem setStatus_regs : (s.setStatus st).regs = s.regs := rfl
@[simp] theorem setStatus_flags : (s.setStatus st).flags = s.flags := rfl
@[simp] theorem setStatus_mem : (s.setStatus st).mem = s.mem := rfl
@[simp] theorem setStatus_readReg : (s.setStatus st).readReg r = s.readReg r := rfl

@[simp] theorem startRun_status : (startRun s).status = .running := rfl
@[simp] theorem startRun_pc : (startRun s).pc = 256 := rfl
@[simp] theorem startRun_regs : (startRun s).regs = s.regs := rfl
@[simp] theorem startRun_flags : (startRun s).flags = s.flags := rfl
@[simp] theorem startRun_mem : (startRun s).mem = s.mem := rfl

/-! ### Flags byte -/

@[simp] theorem setFlags_flags : (s.setFlags f).flags = f := rfl
@[simp] theorem setFlags_pc : (s.setFlags f).pc = s.pc := rfl
@[simp] theorem setFlags_regs : (s.setFlags f).regs = s.regs := rfl
@[simp] theorem setFlags_mem : (s.setFlags f).mem = s.mem := rfl
@[simp] theorem setFlags_status : (s.setFlags f).status = s.status := rfl
@[simp] theorem setFlags_readReg : (s.setFlags f).readReg r = s.readReg r := rfl

end Sys2Proof.Machine
end

