-- ==== Sys2Proof/Laws/Flags.lean ====
section
/-! SUPPORT. The flag bits after each setter, and that every setter keeps the flags byte legal. -/

namespace Sys2Proof.Machine

variable (s : State) (t r : RegField) (wide : Int)

/-- Writing a bit of the byte writes that bit and keeps the others. -/
theorem withBit_getLsbD (f : FlagsByte) (i j : Nat) (b : Bool) (hi : i < 8) :
    (withBit f i b).getLsbD j = if j = i then b else f.getLsbD j := by
  unfold withBit
  rcases Nat.lt_or_ge j 8 with hj | hj
  · cases b <;> simp [hj] <;> rcases Nat.lt_trichotomy j i with h | h | h <;>
      simp [h, Nat.ne_of_lt, Nat.ne_of_gt, Nat.not_lt_of_gt]
  · have : j ≠ i := by omega
    cases b <;> simp [this, BitVec.getLsbD_of_ge, hj]

@[simp] theorem ovBit_eq : ovBit = 0 := rfl
@[simp] theorem ltBit_eq : ltBit = 1 := rfl
@[simp] theorem gtBit_eq : gtBit = 2 := rfl

theorem setComparison_getLsbD (gt lt : Bool) (i : Nat) :
    (s.setComparison gt lt).flags.getLsbD i =
      if i = 1 then lt else if i = 2 then gt else s.flags.getLsbD i := by
  simp [State.setComparison, withBit_getLsbD]

theorem setOverflow_getLsbD (i : Nat) :
    s.setOverflow.flags.getLsbD i = if i = 0 then true else s.flags.getLsbD i := by
  simp [State.setOverflow, withBit_getLsbD]

theorem clearOverflow_getLsbD (i : Nat) :
    s.clearOverflow.flags.getLsbD i = if i = 0 then false else s.flags.getLsbD i := by
  simp [State.clearOverflow, withBit_getLsbD]

/-- `Equal()`, `Greater()` and `Lesser()` in terms of bits 2 and 1 of the flags byte. -/
theorem isEqual_iff : s.isEqual = true ↔ s.flags.getLsbD 2 = false ∧ s.flags.getLsbD 1 = false := by
  simp only [State.isEqual, State.gt, State.lt, gtBit_eq, ltBit_eq, Bool.and_eq_true, Bool.not_eq_true']
theorem isGreater_iff : s.isGreater = true ↔ s.flags.getLsbD 2 = true := Iff.rfl
theorem isLesser_iff : s.isLesser = true ↔ s.flags.getLsbD 1 = true := Iff.rfl

/-! ### The arithmetic finish, field by field -/

theorem arithFinish_readReg :
    (arithFinish t wide s).readReg r = if r = t then BitVec.ofInt 16 wide else s.readReg r := by
  unfold arithFinish
  split <;> simp [State.setOverflow, State.clearOverflow]

theorem arithFinish_getLsbD (i : Nat) :
    (arithFinish t wide s).flags.getLsbD i = if i = 0 then overflows wide else s.flags.getLsbD i := by
  unfold arithFinish
  split <;> rename_i h <;> simp [setOverflow_getLsbD, clearOverflow_getLsbD, h]

theorem arithFinish_ov : (arithFinish t wide s).ov = overflows wide := by
  rw [State.ov, arithFinish_getLsbD, ovBit_eq, if_pos rfl]

@[simp] theorem arithFinish_pc : (arithFinish t wide s).pc = s.pc := by
  unfold arithFinish; split <;> rfl
@[simp] theorem arithFinish_mem : (arithFinish t wide s).mem = s.mem := by
  unfold arithFinish; split <;> rfl
@[simp] theorem arithFinish_status : (arithFinish t wide s).status = s.status := by
  unfold arithFinish; split <;> rfl

/-- Arithmetic writes its target and `OV`, and nothing else. -/
theorem arithFinish_frame : Frame [t] [0] s (arithFinish t wide s) where
  reg_eq r hr := by rw [arithFinish_readReg, if_neg (by simpa using hr)]
  flag_eq i hi := by rw [arithFinish_getLsbD, if_neg (by simpa using hi)]
  mem_eq a := by rw [arithFinish_mem]
  status_eq := arithFinish_status s t wide

/-! ### Legality -/

theorem withBit_ov_legal : ∀ (f : FlagsByte) (b : Bool), FlagsLegal f → FlagsLegal (withBit f ovBit b) := by
  decide

theorem withBit_comparison_legal : ∀ (f : FlagsByte) (gt lt : Bool), (gt && lt) = false →
    FlagsLegal f → FlagsLegal (withBit (withBit f gtBit gt) ltBit lt) := by
  decide

theorem arithFinish_flags_legal (h : FlagsLegal s.flags) : FlagsLegal (arithFinish t wide s).flags := by
  unfold arithFinish
  split
  · exact withBit_ov_legal _ _ h
  · exact withBit_ov_legal _ _ h

theorem setComparison_flags_legal {gt lt : Bool} (hx : (gt && lt) = false) (h : FlagsLegal s.flags) :
    FlagsLegal (s.setComparison gt lt).flags :=
  withBit_comparison_legal _ _ _ hx h

end Sys2Proof.Machine
end

