-- ==== Sys2Proof/Laws/Memory.lean ====
section
/-! SUPPORT. Memory as data: read after write, and every memory operation keeps the canonical form. -/

namespace Sys2Proof.Machine

@[simp] theorem get_nil (a : Nat) : Memory.get [] a = blankCell := rfl

theorem get_cons (b : Nat) (w : Word) (m : Memory) (a : Nat) :
    Memory.get ((b, w) :: m) a = if a = b then w else Memory.get m a := rfl

/-- An address below every listed one reads blank. -/
theorem get_of_lt : ∀ {m : Memory} {a : Nat}, (∀ c ∈ m, a < c.1) → m.get a = blankCell
  | [], _, _ => rfl
  | (b, w) :: rest, a, h => by
    have hb : a < b := h (b, w) (by simp)
    rw [get_cons, if_neg (Nat.ne_of_lt hb)]
    exact get_of_lt fun c hc => h c (by simp [hc])

/-- A write leaves every other cell alone. -/
theorem get_set_other : ∀ (m : Memory) {a b : Nat} (v : Word), b ≠ a → (m.set a v).get b = m.get b
  | [], a, b, v, h => by
    unfold Memory.set
    split
    · rfl
    · simp [get_cons, h]
  | (c, w) :: rest, a, b, v, h => by
    unfold Memory.set
    split
    · split
      · rfl
      · rw [get_cons, if_neg h]
    · split
      · rename_i hac
        subst hac
        split
        · rw [get_cons, if_neg h]
        · rw [get_cons, if_neg h, get_cons, if_neg h]
      · rw [get_cons, get_cons, get_set_other rest v h]

/-- A read of the cell just written gives the value written. -/
theorem get_set_same : ∀ {m : Memory} (a : Nat) (v : Word),
    m.Pairwise (fun c d => c.1 < d.1) → (m.set a v).get a = v
  | [], a, v, _ => by
    unfold Memory.set
    split
    · simp_all
    · simp [get_cons]
  | (c, w) :: rest, a, v, h => by
    obtain ⟨hc, hrest⟩ := List.pairwise_cons.mp h
    unfold Memory.set
    split
    · rename_i hac
      split
      · rename_i hv
        rw [hv]
        refine get_of_lt fun d hd => ?_
        rcases List.mem_cons.mp hd with rfl | hd
        · exact hac
        · exact Nat.lt_trans hac (hc d hd)
      · simp [get_cons]
    · split
      · rename_i hac
        subst hac
        split
        · rename_i hv
          rw [hv]
          exact get_of_lt hc
        · simp [get_cons]
      · rename_i hne
        rw [get_cons, if_neg hne]
        exact get_set_same a v hrest

/-- The cells of a memory after a write are old ones and the one written. -/
theorem mem_set : ∀ {m : Memory} {a : Nat} {v : Word} {c : Cell},
    c ∈ m.set a v → c ∈ m ∨ (c = (a, v) ∧ v ≠ blankCell)
  | [], a, v, c, h => by
    unfold Memory.set at h
    split at h
    · simp at h
    · rename_i hv
      exact .inr ⟨by simpa using h, hv⟩
  | (b, w) :: rest, a, v, c, h => by
    unfold Memory.set at h
    split at h
    · split at h
      · exact .inl h
      · rename_i hv
        rcases List.mem_cons.mp h with rfl | h
        · exact .inr ⟨rfl, hv⟩
        · exact .inl h
    · split at h
      · split at h
        · exact .inl (List.mem_cons_of_mem _ h)
        · rename_i hv
          rcases List.mem_cons.mp h with rfl | h
          · exact .inr ⟨rfl, hv⟩
          · exact .inl (List.mem_cons_of_mem _ h)
      · rcases List.mem_cons.mp h with rfl | h
        · exact .inl (by simp)
        · rcases mem_set h with h | h
          · exact .inl (List.mem_cons_of_mem _ h)
          · exact .inr h

theorem set_pairwise : ∀ {m : Memory} (a : Nat) (v : Word),
    m.Pairwise (fun c d => c.1 < d.1) → (m.set a v).Pairwise (fun c d => c.1 < d.1)
  | [], a, v, _ => by
    unfold Memory.set
    split <;> simp
  | (b, w) :: rest, a, v, h => by
    obtain ⟨hb, hrest⟩ := List.pairwise_cons.mp h
    unfold Memory.set
    split
    · rename_i hab
      split
      · exact h
      · refine List.pairwise_cons.mpr ⟨fun d hd => ?_, h⟩
        rcases List.mem_cons.mp hd with rfl | hd
        · exact hab
        · exact Nat.lt_trans hab (hb d hd)
    · split
      · rename_i hab
        subst hab
        split
        · exact hrest
        · exact List.pairwise_cons.mpr ⟨hb, hrest⟩
      · rename_i hlt hne
        refine List.pairwise_cons.mpr ⟨fun d hd => ?_, set_pairwise a v hrest⟩
        rcases mem_set hd with hd | ⟨rfl, -⟩
        · exact hb d hd
        · exact Nat.lt_of_le_of_ne (Nat.le_of_not_lt hlt) (Ne.symm hne)

/-- A write inside the address space keeps the canonical form. -/
theorem set_wf {m : Memory} {a : Nat} (v : Word) (ha : a < 4096) (h : m.wf) : (m.set a v).wf := by
  refine ⟨set_pairwise a v h.1, fun c hc => ?_⟩
  rcases mem_set hc with hc | ⟨rfl, hv⟩
  · exact h.2 c hc
  · exact ⟨ha, hv⟩

theorem nil_wf : Memory.wf [] := ⟨.nil, fun _ h => absurd h List.not_mem_nil⟩

theorem reset_mem_wf : State.reset.mem.wf := nil_wf

/-- A canonical memory that reads blank everywhere lists nothing. -/
theorem eq_nil_of_blank {m : Memory} (h : m.wf) (hb : ∀ a, m.get a = blankCell) : m = [] := by
  cases m with
  | nil => rfl
  | cons c rest =>
    have := hb c.1
    rw [show c = (c.1, c.2) from rfl, get_cons, if_pos rfl] at this
    exact absurd this (h.2 c (by simp)).2

/-- Equal contents are equal data: the canonical form leaves no choice. -/
theorem wf_ext : ∀ {m m' : Memory}, m.wf → m'.wf → (∀ a, m.get a = m'.get a) → m = m'
  | [], m', _, h', e => (eq_nil_of_blank h' fun a => (e a).symm).symm
  | c :: rest, [], h, _, e => eq_nil_of_blank h e
  | (a, v) :: rest, (b, w) :: rest', h, h', e => by
    obtain ⟨ha, hp⟩ := List.pairwise_cons.mp h.1
    obtain ⟨hb, hp'⟩ := List.pairwise_cons.mp h'.1
    have hv : v ≠ blankCell := (h.2 (a, v) (by simp)).2
    have hw : w ≠ blankCell := (h'.2 (b, w) (by simp)).2
    have hab : a = b := by
      rcases Nat.lt_trichotomy a b with hlt | heq | hgt
      · have := e a
        rw [get_cons, if_pos rfl, get_cons, if_neg (Nat.ne_of_lt hlt),
          get_of_lt fun c hc => Nat.lt_trans hlt (hb c hc)] at this
        exact absurd this hv
      · exact heq
      · have := e b
        rw [get_cons, if_neg (Nat.ne_of_lt hgt), get_of_lt (fun c hc => Nat.lt_trans hgt (ha c hc)),
          get_cons, if_pos rfl] at this
        exact absurd this.symm hw
    subst hab
    have hvw : v = w := by
      have := e a
      rwa [get_cons, if_pos rfl, get_cons, if_pos rfl] at this
    subst hvw
    congr 1
    refine wf_ext ⟨hp, fun c hc => h.2 c (by simp [hc])⟩ ⟨hp', fun c hc => h'.2 c (by simp [hc])⟩
      fun c => ?_
    by_cases hc : c = a
    · subst hc
      rw [get_of_lt ha, get_of_lt hb]
    · have := e c
      rwa [get_cons, if_neg hc, get_cons, if_neg hc] at this

end Sys2Proof.Machine
end

