-- ==== Sys2Proof/Laws/Ops.lean ====
section
/-! SUPPORT. For each shared operation, what it does in each case, and once everything it can do. -/

namespace Sys2Proof.Machine

variable {s s' : State}

/-! ### Bounds-checked access -/

theorem memRead_of_lt {a : Nat} (h : a < 4096) : memRead s a = .ok (s.mem.get a) :=
  if_neg (Nat.not_le_of_lt h)

theorem memRead_of_ge {a : Nat} (h : 4096 ≤ a) : memRead s a = .error (.invalidMemoryLocation a) :=
  if_pos h

theorem memWrite_of_lt {a : Nat} (v : Word) (h : a < 4096) :
    memWrite s a v = .ok { s with mem := s.mem.set a v } :=
  if_neg (Nat.not_le_of_lt h)

theorem memWrite_of_ge {a : Nat} (v : Word) (h : 4096 ≤ a) :
    memWrite s a v = .error (.invalidMemoryLocation a) :=
  if_pos h

/-- A write that succeeds is inside the address space and changes the memory only. -/
theorem memWrite_ok {a : Nat} {v : Word} (h : memWrite s a v = .ok s') :
    a < 4096 ∧ s' = { s with mem := s.mem.set a v } := by
  unfold memWrite at h
  split at h
  · cases h
  · rename_i hlt
    cases h
    exact ⟨Nat.lt_of_not_le hlt, rfl⟩

/-! ### Raising -/

theorem raise_eq (e : RunError) : raise e s = .next (s.setStatus (.failed e)) := rfl

@[simp] theorem afterFailedRead_eq : afterFailedRead s = s := rfl

/-! ### Fetching -/

theorem fetchThen_of_lt (k : Word → State → Result) (h : s.pc.toNat < 4096) :
    fetchThen s k = k (s.mem.get s.pc.toNat) s.advancePc := by
  simp only [fetchThen, memRead_of_lt h]

theorem fetchThen_of_ge (k : Word → State → Result) (h : 4096 ≤ s.pc.toNat) :
    fetchThen s k = raise (.invalidMemoryLocation s.pc.toNat) s := by
  simp only [fetchThen, memRead_of_ge h, afterFailedRead_eq]

/-- A fetch goes on with the word at the pc, or raises with nothing changed. -/
theorem fetchThen_cases (s : State) (k : Word → State → Result) :
    (s.pc.toNat < 4096 ∧ fetchThen s k = k (s.mem.get s.pc.toNat) s.advancePc) ∨
    (4096 ≤ s.pc.toNat ∧
      fetchThen s k = .next (s.setStatus (.failed (.invalidMemoryLocation s.pc.toNat)))) := by
  rcases Nat.lt_or_ge s.pc.toNat 4096 with h | h
  · exact .inl ⟨h, fetchThen_of_lt k h⟩
  · exact .inr ⟨h, fetchThen_of_ge k h⟩

/-- A data read goes on with the cell, or raises with nothing changed. -/
theorem readThen_cases (s : State) (a : Nat) (k : Word → Result) :
    (a < 4096 ∧ readThen s a k = k (s.mem.get a)) ∨
    (4096 ≤ a ∧
      readThen s a k = .next (s.setStatus (.failed (.invalidMemoryLocation a)))) := by
  rcases Nat.lt_or_ge a 4096 with h | h
  · exact .inl ⟨h, by simp only [readThen, memRead_of_lt h]⟩
  · exact .inr ⟨h, by simp only [readThen, memRead_of_ge h, raise_eq]⟩

/-- A data write changes one cell, or raises with nothing changed. -/
theorem storeOrRaise_cases (s : State) (a : Nat) (v : Word) :
    (a < 4096 ∧ storeOrRaise s a v = .next { s with mem := s.mem.set a v }) ∨
    (4096 ≤ a ∧
      storeOrRaise s a v = .next (s.setStatus (.failed (.invalidMemoryLocation a)))) := by
  rcases Nat.lt_or_ge a 4096 with h | h
  · exact .inl ⟨h, by simp only [storeOrRaise, memWrite_of_lt v h]⟩
  · exact .inr ⟨h, by simp only [storeOrRaise, memWrite_of_ge v h, raise_eq]⟩

end Sys2Proof.Machine
end

