-- ==== Sys2Proof/Laws/Exec.lean ====
section
/-! SUPPORT. For each instruction, once, everything its meaning can do, in terms of the state updates of
Laws/State.lean. Later proofs cite these and do not unfold `exec`. -/

namespace Sys2Proof.Machine

variable (s : State) (a t n : RegField) (m : Memloc)

/-! ### Control flow -/

theorem exec_halt : exec (.halt m) s = .next (s.setStatus .halted) := rfl
theorem exec_noop : exec (.noop m) s = .next s := rfl
theorem exec_jmp : exec (.jmp m) s = .next (s.setPc (jumpTarget m)) := rfl

/-- A jump is taken, or nothing happens. -/
theorem jumpIf_cases (c : Bool) :
    (c = true ∧ jumpIf c m s = .next (s.setPc (jumpTarget m))) ∨ (c = false ∧ jumpIf c m s = .next s) := by
  cases c
  · exact .inr ⟨rfl, rfl⟩
  · exact .inl ⟨rfl, rfl⟩

theorem exec_jeq_cases :
    (s.isEqual = true ∧ exec (.jeq m) s = .next (s.setPc (jumpTarget m))) ∨
    (s.isEqual = false ∧ exec (.jeq m) s = .next s) := jumpIf_cases s m _
theorem exec_jgt_cases :
    (s.isGreater = true ∧ exec (.jgt m) s = .next (s.setPc (jumpTarget m))) ∨
    (s.isGreater = false ∧ exec (.jgt m) s = .next s) := jumpIf_cases s m _
theorem exec_jlt_cases :
    (s.isLesser = true ∧ exec (.jlt m) s = .next (s.setPc (jumpTarget m))) ∨
    (s.isLesser = false ∧ exec (.jlt m) s = .next s) := jumpIf_cases s m _

theorem jumpTarget_toNat : (jumpTarget m).toNat = m.toNat := by
  have := m.isLt
  simp [jumpTarget]
  omega

/-! ### Data transfer -/

/-- The state in which an access outside the address space ends the run. -/
def badAddress (s : State) (addr : Nat) : State := s.setStatus (.failed (.invalidMemoryLocation addr))

theorem exec_setreg_cases :
    (s.pc.toNat < 4096 ∧
      exec (.setreg a t) s = .next (s.advancePc.writeReg t (s.mem.get s.pc.toNat))) ∨
    (4096 ≤ s.pc.toNat ∧ exec (.setreg a t) s = .next (badAddress s s.pc.toNat)) :=
  fetchThen_cases s fun lit st' => .next (st'.writeReg t lit)

theorem exec_load_cases :
    (s.pc.toNat < 4096 ∧ operandAddress (s.mem.get s.pc.toNat) < 4096 ∧
      exec (.load a t) s =
        .next (s.advancePc.writeReg t (s.mem.get (operandAddress (s.mem.get s.pc.toNat))))) ∨
    (s.pc.toNat < 4096 ∧ 4096 ≤ operandAddress (s.mem.get s.pc.toNat) ∧
      exec (.load a t) s = .next (badAddress s.advancePc (operandAddress (s.mem.get s.pc.toNat)))) ∨
    (4096 ≤ s.pc.toNat ∧ exec (.load a t) s = .next (badAddress s s.pc.toNat)) := by
  rcases fetchThen_cases s fun addr st' =>
      readThen st' (operandAddress addr) fun v => .next (st'.writeReg t v) with ⟨h, e⟩ | ⟨h, e⟩
  · rcases readThen_cases s.advancePc (operandAddress (s.mem.get s.pc.toNat))
        fun v => .next (s.advancePc.writeReg t v) with ⟨h', e'⟩ | ⟨h', e'⟩
    · exact .inl ⟨h, h', e.trans e'⟩
    · exact .inr (.inl ⟨h, h', e.trans e'⟩)
  · exact .inr (.inr ⟨h, e⟩)

theorem exec_store_cases :
    (s.pc.toNat < 4096 ∧ operandAddress (s.mem.get s.pc.toNat) < 4096 ∧
      exec (.store a t) s = .next { s.advancePc with
        mem := s.mem.set (operandAddress (s.mem.get s.pc.toNat)) (s.readReg a) }) ∨
    (s.pc.toNat < 4096 ∧ 4096 ≤ operandAddress (s.mem.get s.pc.toNat) ∧
      exec (.store a t) s = .next (badAddress s.advancePc (operandAddress (s.mem.get s.pc.toNat)))) ∨
    (4096 ≤ s.pc.toNat ∧ exec (.store a t) s = .next (badAddress s s.pc.toNat)) := by
  rcases fetchThen_cases s fun addr st' => storeOrRaise st' (operandAddress addr) (st'.readReg a)
    with ⟨h, e⟩ | ⟨h, e⟩
  · rcases storeOrRaise_cases s.advancePc (operandAddress (s.mem.get s.pc.toNat)) (s.readReg a)
      with ⟨h', e'⟩ | ⟨h', e'⟩
    · exact .inl ⟨h, h', e.trans e'⟩
    · exact .inr (.inl ⟨h, h', e.trans e'⟩)
  · exact .inr (.inr ⟨h, e⟩)

/-! ### Arithmetic and compare -/

theorem exec_add :
    exec (.add a t) s = .next (arithFinish t ((regValue s a : Int) + (regValue s t : Int)) s) := rfl
theorem exec_sub :
    exec (.sub a t) s = .next (arithFinish t ((regValue s a : Int) - (regValue s t : Int)) s) := rfl
theorem exec_mul :
    exec (.mul a t) s = .next (arithFinish t ((regValue s a : Int) * (regValue s t : Int)) s) := rfl

theorem exec_div_cases :
    (regValue s t ≠ 0 ∧
      exec (.div a t) s = .next (arithFinish t ((regValue s a / regValue s t : Nat) : Int) s)) ∨
    (regValue s t = 0 ∧ exec (.div a t) s = .next (s.setStatus (.failed .divisionByZero))) := by
  by_cases h : regValue s t = 0
  · exact .inr ⟨h, if_pos h⟩
  · exact .inl ⟨h, if_neg h⟩

/-- CMP writes the two comparison bits as the two strict comparisons. -/
theorem exec_cmp :
    exec (.cmp a t) s =
      .next (s.setComparison (decide (regValue s t < regValue s a)) (decide (regValue s a < regValue s t))) := by
  show execCmp a t s = _
  unfold execCmp
  split
  · next h => simp [h, State.setEqual]
  · split
    · next h => simp [h, Nat.not_lt_of_gt h, State.setGreater]
    · next hne hn => simp [hn, show regValue s a < regValue s t by omega, State.setLesser]

/-! ### Logical and shift -/

theorem exec_and : exec (.and a t) s = .next (s.writeReg t (s.readReg a &&& s.readReg t)) := rfl
theorem exec_or : exec (.or a t) s = .next (s.writeReg t (s.readReg a ||| s.readReg t)) := rfl
theorem exec_xor : exec (.xor a t) s = .next (s.writeReg t (s.readReg a ^^^ s.readReg t)) := rfl
theorem exec_shl : exec (.shl n t) s = .next (s.writeReg t (s.readReg t <<< shiftCount n)) := rfl
theorem exec_shr : exec (.shr n t) s = .next (s.writeReg t (s.readReg t >>> shiftCount n)) := rfl
theorem exec_not : exec (.not a t) s = .next (s.writeReg t (~~~(s.readReg t))) := rfl

/-! ### Frames of the shared updates -/

theorem writeReg_frame (v : Word) : Frame [t] [] s (s.writeReg t v) where
  reg_eq r hr := readReg_writeReg_other s t r v (by simpa using hr)
  flag_eq _ _ := rfl
  mem_eq _ := rfl
  status_eq := rfl

theorem advancePc_writeReg_frame (v : Word) : Frame [t] [] s (s.advancePc.writeReg t v) where
  reg_eq r hr := readReg_writeReg_other s.advancePc t r v (by simpa using hr)
  flag_eq _ _ := rfl
  mem_eq _ := rfl
  status_eq := rfl

theorem setComparison_frame (gt lt : Bool) : Frame [] [1, 2] s (s.setComparison gt lt) where
  reg_eq _ _ := rfl
  flag_eq i hi := by
    rw [setComparison_getLsbD, if_neg (by rintro rfl; simp at hi), if_neg (by rintro rfl; simp at hi)]
  mem_eq _ := rfl
  status_eq := rfl

end Sys2Proof.Machine
end

