-- ==== Sys2Proof/Laws/PerInstr.lean ====
section
/-! SUPPORT. Per-instruction facts about the syntax, one lemma per constructor. -/

/-- An instruction's tuple is well-formed, and dispatching it gives the instruction back. -/
def Sys2Proof.Laws.FieldsWellFormed.Statement (i : Sys2Proof.Instr) : Prop :=
  i.fields.wellFormed = true ∧ Sys2Proof.dispatch i.fields = .instr i

namespace Sys2Proof.Laws.FieldsWellFormed

theorem of_memloc {i : Instr} (k : Config.Mnemonic) (hi : i.mnemonic = k) (hk : opcodeNumber k < 8) (hr : i.regFields = (0, 0)) : Statement i := by
  subst hi
  have hle := opcodeNumber_le i.mnemonic
  have hm := i.memloc.isLt
  refine ⟨?_, ?_⟩
  · simp [Fields.wellFormed, Fields.opcodeInDomain, Fields.operandsInWidth, Fields.uncarriedZero,
      Instr.fields, hr, hk]
    omega
  · have := mkInstr_self i
    rw [hr] at this
    simpa [dispatch, Instr.fields, hr] using this

theorem of_regs {i : Instr} (k : Config.Mnemonic) (hi : i.mnemonic = k) (hk : ¬ opcodeNumber k < 8) (hm : i.memloc = 0) : Statement i := by
  subst hi
  have hle := opcodeNumber_le i.mnemonic
  have hs := i.regFields.1.isLt
  have ht := i.regFields.2.isLt
  refine ⟨?_, ?_⟩
  · simp only [Fields.wellFormed, Fields.opcodeInDomain, Fields.operandsInWidth, Fields.uncarriedZero,
      Instr.fields, hm, if_neg hk]
    simp [hle, hs, ht]
  · have := mkInstr_self i
    rw [hm] at this
    simpa [dispatch, Instr.fields, hm] using this

theorem halt (m : Memloc) : Statement (.halt m) := of_memloc .halt rfl (by decide) rfl
theorem noop (m : Memloc) : Statement (.noop m) := of_memloc .noop rfl (by decide) rfl
theorem jmp (m : Memloc) : Statement (.jmp m) := of_memloc .jmp rfl (by decide) rfl
theorem jeq (m : Memloc) : Statement (.jeq m) := of_memloc .jeq rfl (by decide) rfl
theorem jgt (m : Memloc) : Statement (.jgt m) := of_memloc .jgt rfl (by decide) rfl
theorem jlt (m : Memloc) : Statement (.jlt m) := of_memloc .jlt rfl (by decide) rfl
theorem setreg (s t : RegField) : Statement (.setreg s t) := of_regs .setreg rfl (by decide) rfl
theorem load (s t : RegField) : Statement (.load s t) := of_regs .load rfl (by decide) rfl
theorem store (s t : RegField) : Statement (.store s t) := of_regs .store rfl (by decide) rfl
theorem add (s t : RegField) : Statement (.add s t) := of_regs .add rfl (by decide) rfl
theorem sub (s t : RegField) : Statement (.sub s t) := of_regs .sub rfl (by decide) rfl
theorem mul (s t : RegField) : Statement (.mul s t) := of_regs .mul rfl (by decide) rfl
theorem div (s t : RegField) : Statement (.div s t) := of_regs .div rfl (by decide) rfl
theorem cmp (s t : RegField) : Statement (.cmp s t) := of_regs .cmp rfl (by decide) rfl
theorem and (s t : RegField) : Statement (.and s t) := of_regs .and rfl (by decide) rfl
theorem or (s t : RegField) : Statement (.or s t) := of_regs .or rfl (by decide) rfl
theorem xor (s t : RegField) : Statement (.xor s t) := of_regs .xor rfl (by decide) rfl
theorem shl (n t : RegField) : Statement (.shl n t) := of_regs .shl rfl (by decide) rfl
theorem shr (n t : RegField) : Statement (.shr n t) := of_regs .shr rfl (by decide) rfl
theorem not (s t : RegField) : Statement (.not s t) := of_regs .not rfl (by decide) rfl

end Sys2Proof.Laws.FieldsWellFormed
end

