-- ==== Sys2Proof/Laws/Run.lean ====
section
/-! SUPPORT. What a run does, step by step, and what a host call does outside a run. -/

namespace Sys2Proof.Machine

variable {s s' final : State}

/-! ### Steps -/

/-- A step that answers a next state began in a run. -/
theorem running_of_step (h : step s = .next s') : s.status = .running := by
  unfold step at h
  split at h
  · assumption
  all_goals cases h

/-- `core.run` over one more step. -/
theorem core_run_succ {n : Nat} (h : step s = .next s') : core.run (n + 1) s = core.run n s' := by
  have hc : core.step s = .next s' := h
  simp only [Host.Core.run, hc]

/-- A run of steps that answers a next state is empty, or a first step and the rest. -/
theorem core_run_cases {n : Nat} (h : core.run n s = .next final) :
    (n = 0 ∧ final = s) ∨
    ∃ k s', n = k + 1 ∧ step s = .next s' ∧ core.run k s' = .next final := by
  cases n with
  | zero => exact .inl ⟨rfl, by cases h; rfl⟩
  | succ k =>
    refine .inr ⟨k, ?_⟩
    simp only [Host.Core.run] at h
    split at h
    · exact ⟨_, rfl, by assumption, h⟩
    · cases h
    · cases h

/-! ### Runs within a budget -/

theorem runWithin_of_not_running {k : Nat} (h : s.status ≠ .running) : runWithin k s = some s := by
  cases k <;> exact if_neg h

theorem runWithin_zero (h : s.status = .running) : runWithin 0 s = none := if_pos h

theorem runWithin_succ {k : Nat} (h : step s = .next s') : runWithin (k + 1) s = runWithin k s' := by
  rw [runWithin, if_pos (running_of_step h), h]

/-- All that a final state within a budget can come from. -/
theorem runWithin_cases {k : Nat} (h : runWithin k s = some final) :
    (s.status ≠ .running ∧ final = s) ∨
    ∃ j s', k = j + 1 ∧ step s = .next s' ∧ runWithin j s' = some final := by
  by_cases hr : s.status = .running
  · cases k with
    | zero =>
      rw [runWithin_zero hr] at h
      cases h
    | succ j =>
      refine .inr ⟨j, ?_⟩
      rw [runWithin, if_pos hr] at h
      split at h
      · exact ⟨_, rfl, by assumption, h⟩
      · cases h
      · cases h
  · rw [runWithin_of_not_running hr] at h
    cases h
    exact .inl ⟨hr, rfl⟩

/-! ### Host calls -/

theorem hostCall_of_not_running (c : HostCall) (h : s.status ≠ .running) : hostCall c s = acceptedCall c s := by
  unfold hostCall
  split
  · exact absurd ‹_› h
  all_goals rfl

theorem acceptedCall_encode (f : Fields) : acceptedCall (.encode f) s =
    match encodeFields f with
    | some w => .next (s, .word w)
    | none => .refused .encodeOutsideDomain := rfl

end Sys2Proof.Machine
end

