-- ==== Sys2Proof/Laws/Words.lean ====
section
/-! SUPPORT. The value of a word written out by its format, and every word written so. -/

namespace Sys2Proof.Machine

theorem family0Word_toNat (op : BitVec 3) (m : Memloc) :
    (family0Word op m).toNat = op.toNat * 4096 + m.toNat := by
  have := m.isLt
  have := op.isLt
  simp only [family0Word, BitVec.toNat_append]
  rw [← Nat.shiftLeft_add_eq_or_of_lt (by omega), ← Nat.shiftLeft_add_eq_or_of_lt (by omega)]
  simp [Nat.shiftLeft_eq]

theorem family1Word_toNat (o : BitVec 6) (x : BitVec 1) (s t : RegField) :
    (family1Word o x s t).toNat = 0x8000 + o.toNat * 512 + x.toNat * 256 + s.toNat * 16 + t.toNat := by
  have := o.isLt
  have := x.isLt
  have := s.isLt
  have := t.isLt
  simp only [family1Word, BitVec.toNat_append]
  rw [← Nat.shiftLeft_add_eq_or_of_lt (by omega), ← Nat.shiftLeft_add_eq_or_of_lt (by omega),
    ← Nat.shiftLeft_add_eq_or_of_lt (by omega), ← Nat.shiftLeft_add_eq_or_of_lt (by omega)]
  simp [Nat.shiftLeft_eq]
  omega

/-- Bit 15 says on which side of 0x8000 the word is. -/
theorem getLsbD_15 (w : Word) : w.getLsbD 15 = decide (0x8000 ≤ w.toNat) := by
  have := BitVec.msb_eq_decide w
  rw [BitVec.msb_eq_getLsbD_last] at this
  simpa using this

theorem eq_family0Word {w : Word} (h : w.toNat < 0x8000) :
    w = family0Word (BitVec.ofNat 3 (w.toNat / 4096)) (BitVec.ofNat 12 w.toNat) := by
  apply BitVec.eq_of_toNat_eq
  rw [family0Word_toNat]
  simp
  omega

theorem eq_family1Word {w : Word} (h : 0x8000 ≤ w.toNat) :
    w = family1Word (BitVec.ofNat 6 (w.toNat / 512)) (BitVec.ofNat 1 (w.toNat / 256))
      (BitVec.ofNat 4 (w.toNat / 16)) (BitVec.ofNat 4 w.toNat) := by
  have := w.isLt
  apply BitVec.eq_of_toNat_eq
  rw [family1Word_toNat]
  simp
  omega

end Sys2Proof.Machine
end

