-- ==== Sys2Proof/Tests/Slice0.lean ====
section
/-! SUPPORT. The model's own tests. Expected values come from spec/95_test_vectors.md (vector ids in the
comments) and from the encodings of 30_encoding.md R80. After them, one witness per statement with
hypotheses, or per clause of one. -/

namespace Sys2Proof.Machine.Tests

/-! ### Decoding: words written out bit by bit from R80's patterns -/

theorem test_decode_halt : decode 0b0000_101010111100#16 = .instr (.halt 0xABC) := by decide
theorem test_decode_noop : decode 0b0001_000000000000#16 = .instr (.noop 0) := by decide
theorem test_decode_jmp : decode 0b0010_101010111100#16 = .instr (.jmp 0xABC) := by decide -- K3
theorem test_decode_jeq : decode 0b0011_111111111111#16 = .instr (.jeq 0xFFF) := by decide -- K4
theorem test_decode_jgt : decode 0b0100_100000000000#16 = .instr (.jgt 0x800) := by decide -- K5
theorem test_decode_jlt : decode 0b0101_100000000000#16 = .instr (.jlt 0x800) := by decide -- K6
theorem test_decode_setreg : decode 0b1000001_1_0010_0011#16 = .instr (.setreg 2 3) := by decide -- K12
theorem test_decode_load : decode 0b1000010_0_0000_0011#16 = .instr (.load 0 3) := by decide
theorem test_decode_store : decode 0b1000011_0_0101_0000#16 = .instr (.store 5 0) := by decide
theorem test_decode_add : decode 0b1000100_1_0011_0101#16 = .instr (.add 3 5) := by decide -- K16
theorem test_decode_sub : decode 0b1000101_0_0010_0011#16 = .instr (.sub 2 3) := by decide
theorem test_decode_mul : decode 0b1000110_0_0000_0001#16 = .instr (.mul 0 1) := by decide
theorem test_decode_div : decode 0b1000111_0_0100_0101#16 = .instr (.div 4 5) := by decide
theorem test_decode_cmp : decode 0b1001000_0_0000_0001#16 = .instr (.cmp 0 1) := by decide -- K17
theorem test_decode_and : decode 0b1001001_0_0000_0001#16 = .instr (.and 0 1) := by decide
theorem test_decode_or : decode 0b1001010_0_0000_0001#16 = .instr (.or 0 1) := by decide
theorem test_decode_xor : decode 0b1001011_0_0001_0000#16 = .instr (.xor 1 0) := by decide
theorem test_decode_shl : decode 0b1001100_0_0100_0010#16 = .instr (.shl 4 2) := by decide
theorem test_decode_shr : decode 0b1001101_0_1111_0001#16 = .instr (.shr 15 1) := by decide
theorem test_decode_not : decode 0b1001110_1_1111_1111#16 = .instr (.not 15 15) := by decide -- K19

theorem test_decode_invalid : -- K7, K8, K9, K10, K20, K21
    [0x6000#16, 0x7123#16, 0x8000#16, 0x81FF#16, 0x9E00#16, 0xFFFF#16].map decode =
      [.invalidOpcode 6, .invalidOpcode 7, .invalidOpcode 7, .invalidOpcode 7, .invalidOpcode 22,
        .invalidOpcode 70] := by decide

theorem test_encode : -- K22 to K30
    [encodeFields ⟨2, 0, 0, 0x1ABC⟩, encodeFields ⟨11, 0x13, 0x25, 0⟩, encodeFields ⟨0, 5, 5, 0⟩,
      encodeFields ⟨21, 0, 7, 0⟩, encodeFields ⟨8, 0, 0, 0⟩, encodeFields ⟨5, 0, 0, 2048⟩,
      encodeFields ⟨19, 15, 15, 0⟩, encodeFields ⟨10, 3, 9, 0xFFF⟩, encodeFields ⟨22, 0, 0, 0⟩] =
    [some 0x2ABC#16, some 0x8835#16, some 0x0000#16, some 0x9C07#16, some 0x8200#16, some 0x5800#16,
      some 0x98FF#16, some 0x8639#16, none] := by decide

theorem test_table_word : decodeTableWord 16 0x8835 = some (.add 3 5) ∧
    decodeTableWord 32 0x00108200 = some (.setreg 0 0) ∧ decodeTableWord 16 0xFFFF = none := by decide

/-! ### WellFormed: one ill-formed tuple for each check -/

theorem smoke_accepts : Fields.wellFormed ⟨11, 3, 5, 0⟩ = true ∧ Fields.wellFormed ⟨2, 0, 0, 0xABC⟩ = true := by decide
theorem smoke_opcode : Fields.wellFormed ⟨22, 0, 0, 0⟩ = false := by decide
theorem smoke_source : Fields.wellFormed ⟨11, 16, 0, 0⟩ = false := by decide
theorem smoke_target : Fields.wellFormed ⟨11, 0, 16, 0⟩ = false := by decide
theorem smoke_memloc : Fields.wellFormed ⟨2, 0, 0, 4096⟩ = false := by decide
theorem smoke_family0_source : Fields.wellFormed ⟨2, 1, 0, 0⟩ = false := by decide
theorem smoke_family0_target : Fields.wellFormed ⟨2, 0, 1, 0⟩ = false := by decide
theorem smoke_family1_memloc : Fields.wellFormed ⟨11, 0, 0, 1⟩ = false := by decide

/-! ### One step -/

/-- A running machine with the given pc, flags, registers and cells; the rest is 0. -/
def machine (pc : Word) (flags : FlagsByte) (regs : List (RegField × Word)) (cells : List Cell) : State :=
  regs.foldl (fun s p => s.writeReg p.1 p.2)
    { State.reset with
      pc := pc, flags := flags, status := .running
      mem := cells.foldl (fun m c => m.set c.1 c.2) [] }

/-- The state after one step, if it answers next. -/
def after (s : State) : Option State :=
  match step s with
  | .next s' => some s'
  | .fault _ => none
  | .refused _ => none

/-- Two registers and the flags after one ALU word at 256 with `r0` and `r1` given. -/
def alu (w : Word) (r0 r1 : Word) (flags : FlagsByte) : Option (Word × FlagsByte) :=
  (after (machine 256 flags [(0, r0), (1, r1)] [(256, w)])).map fun s => (s.readReg 1, s.flags)

/-- pc and flags after one word at 256. -/
def pcAfter (w : Word) (flags : FlagsByte) : Option (Word × FlagsByte) :=
  (after (machine 256 flags [] [(256, w)])).map fun s => (s.pc, s.flags)

theorem test_halt : (after (machine 256 0 [] [])).map (fun s => (s.pc, s.status)) = some (257, .halted) := by
  decide -- V-L1-4, J1
theorem test_halt_at_4095 : (after (machine 4095 0 [] [])).map (fun s => (s.pc, s.status)) = some (4096, .halted) := by
  decide -- M15
theorem test_noop : pcAfter 0x1000 7 = some (257, 7) := by decide -- J3
theorem test_noop_at_4095 :
    (after (machine 4095 0 [] [(4095, 0x1000)])).map (fun s => (s.pc, s.status)) = some (4096, .running) := by
  decide -- M14
theorem test_jmp : pcAfter 0x2FFF 0 = some (4095, 0) := by decide -- J19
theorem test_jeq : [0x00, 0x01, 0x02, 0x04].map (pcAfter 0x3300) = -- J6 to J9
    [some (0x300, 0), some (0x300, 1), some (257, 2), some (257, 4)] := by decide
theorem test_jgt : [0x04, 0x05, 0x00, 0x02].map (pcAfter 0x4300) = -- J10 to J13
    [some (0x300, 4), some (0x300, 5), some (257, 0), some (257, 2)] := by decide
theorem test_jlt : [0x02, 0x03, 0x00, 0x04].map (pcAfter 0x5300) = -- J14 to J17
    [some (0x300, 2), some (0x300, 3), some (257, 0), some (257, 4)] := by decide

theorem test_setreg : (after (machine 256 0 [(7, 9)] [(256, 0x8372), (257, 0x1234)])).map
    (fun s => (s.readReg 2, s.readReg 7, s.pc)) = some (0x1234, 9, 258) := by decide -- M3
theorem test_setreg_at_4095 : (after (machine 4095 0 [(3, 7)] [(4095, 0x8203)])).map
    (fun s => (s.status, s.pc, s.readReg 3)) = some (.failed (.invalidMemoryLocation 4096), 4096, 7) := by
  decide -- M13
theorem test_load : (after (machine 256 0 [] [(256, 0x8403), (257, 0x0FFF), (4095, 0x42)])).map
    (fun s => (s.readReg 3, s.pc)) = some (0x42, 258) := by decide -- M5
theorem test_load_out_of_range : (after (machine 256 0 [(3, 7)] [(256, 0x8403), (257, 0x1000)])).map
    (fun s => (s.status, s.pc, s.readReg 3)) = some (.failed (.invalidMemoryLocation 4096), 258, 7) := by
  decide -- M6
theorem test_store : (after (machine 256 0 [(5, 0xCAFE)] [(256, 0x8650), (257, 0x0300)])).map
    (fun s => (s.mem.get 0x300, s.pc)) = some (0xCAFE, 258) := by decide -- M9
theorem test_store_own_operand : (after (machine 256 0 [] [(256, 0x8650), (257, 0x0101)])).map
    (fun s => (s.mem, s.pc)) = some ([(256, 0x8650)], 258) := by decide -- M12

theorem test_add : alu 0x8801 0xFFFF 1 0 = some (0, 1) := by decide -- A2
theorem test_add_clears : alu 0x8801 1 2 0x07 = some (3, 6) := by decide -- A4, A5
theorem test_sub : alu 0x8A01 3 10 0 = some (0xFFF9, 1) := by decide -- A8
theorem test_sub_keeps : alu 0x8A01 0 0xFFFF 4 = some (1, 5) := by decide -- A12
theorem test_mul : alu 0x8C01 0xFFFF 0xFFFF 0 = some (1, 1) := by decide -- A16
theorem test_mul_fits : alu 0x8C01 0xFF 0x101 0 = some (0xFFFF, 0) := by decide -- A15
theorem test_div : alu 0x8E01 7 0x64 1 = some (0, 0) := by decide -- A20
theorem test_div_by_zero : (after (machine 256 0 [(0, 5)] [(256, 0x8E01)])).map
    (fun s => (s.status, s.pc)) = some (.failed .divisionByZero, 257) := by decide -- A23
theorem test_cmp : alu 0x9001 0x20 0x10 1 = some (0x10, 5) := by decide -- C2
theorem test_cmp_unsigned : alu 0x9001 0 0xFFFF 0 = some (0xFFFF, 2) := by decide -- C5
theorem test_and : alu 0x9201 0xF0F0 0x3C3C 0 = some (0x3030, 0) := by decide -- B1
theorem test_or : alu 0x9401 0xF0F0 0x3C3C 1 = some (0xFCFC, 1) := by decide -- B2
theorem test_xor : alu 0x9601 0xF0F0 0x3C3C 0 = some (0xCCCC, 0) := by decide -- B3
theorem test_shl : alu 0x9811 9 0x8001 0 = some (2, 0) := by decide -- B9
theorem test_shr : alu 0x9AF1 9 0x8000 0 = some (1, 0) := by decide -- B12
theorem test_not : alu 0x9C01 9 0xEDCB 1 = some (0x1234, 1) := by decide -- B15

theorem test_invalid : (after (machine 256 0 [] [(256, 0xFFFF)])).map (fun s => (s.status, s.pc)) =
    some (.failed (.invalidOpcode 70 0xFFFF), 257) := by decide -- E1
theorem test_fetch_at_4096 : (after (machine 4096 0 [] [])).map (fun s => (s.status, s.pc)) =
    some (.failed (.invalidMemoryLocation 4096), 4096) := by decide -- M14

/-! ### The host -/

theorem test_host_load : (hostLoad State.reset 4094 [1, 2, 3]).1.mem = [(4094, 1), (4095, 2)] ∧
    (hostLoad State.reset 4094 [1, 2, 3]).2 = .error (.invalidMemoryLocation 4096) := by decide -- H3
theorem test_host_register : getRegister State.reset 16 = (State.reset, .error (.invalidRegister 16)) ∧
    (getRegister (setRegister State.reset 15 0xFFFF).1 15).2 = .word 0xFFFF := by decide -- H1, H2
theorem test_host_flags : (State.reset.ov, State.reset.isEqual, State.reset.isGreater, State.reset.isLesser) =
    (false, true, false, false) := by decide -- H6
theorem test_placed_first_after_reset :
    (after (State.reset.withFetchWord 32 0x00108200)).map (fun s => (s.readReg 0, s.pc)) = some (16, 258) := by
  decide -- V-L1-5

/-! ### Witnesses: a concrete case that meets the hypotheses of each statement, clause by clause -/

theorem witness_DecodedFieldsAreTheWordsBits :
    (0x7FFF : Word).toNat < 0x8000 ∧ 0x8000 ≤ (0x8000 : Word).toNat := by decide
theorem witness_EncodeBuildsTheFamilysWord : 21 ≤ 21 ∧ ¬ 21 < 8 ∧ 7 ≤ 21 ∧ 7 < 8 := by decide
theorem witness_CodecRoundTrips_family0 : (0 : Nat) ≤ 21 ∧ 0 < 16 ∧ 4095 < 4096 ∧ 7 < 8 := by decide
theorem witness_CodecRoundTrips_family1 : (21 : Nat) ≤ 21 ∧ 15 < 16 ∧ 0 < 4096 ∧ 8 ≤ 21 := by decide
theorem witness_CodecRoundTrips_words :
    (0x7FFF : Word).getLsbD 15 = false ∧ (0x9CFF : Word).getLsbD 15 = true ∧ (0 : Memloc) ≠ 1 := by decide
theorem witness_OpcodeMapByWordValue :
    (0x5FFF : Word).toNat < 0x6000 ∧ 0x6000 ≤ (0x81FF : Word).toNat ∧ (0x81FF : Word).toNat < 0x8200 ∧
    0x8200 ≤ (0x9DFF : Word).toNat ∧ (0x9DFF : Word).toNat < 0x9E00 ∧ 0x9E00 ≤ (0x9E00 : Word).toNat := by decide
theorem witness_BitEight :
    (0x8835 : Word).getLsbD 15 = true ∧
    (∀ i, i < 16 → i ≠ 8 → (0x8935 : Word).getLsbD i = (0x8835 : Word).getLsbD i) ∧
    (encode (.add 3 5)).getLsbD 15 = true := by decide
theorem witness_BitEight_above : ∀ i, 16 ≤ i → (0x8935 : Word).getLsbD i = (0x8835 : Word).getLsbD i :=
  fun i h => by rw [BitVec.getLsbD_of_ge _ _ h, BitVec.getLsbD_of_ge _ _ h]

theorem witness_Setreg : (machine 4095 0 [] []).pc.toNat < 4096 ∧ 4096 ≤ (machine 4096 0 [] []).pc.toNat := by decide
theorem witness_LoadStore_completes :
    (machine 257 0 [] [(257, 4095)]).pc.toNat < 4096 ∧
    operandAddress ((machine 257 0 [] [(257, 4095)]).mem.get 257) < 4096 ∧
    (machine 257 0 [] [(257, 4095)]).mem.wf := by decide
theorem witness_LoadStore_badAddress :
    (machine 257 0 [] [(257, 4096)]).pc.toNat < 4096 ∧
    4096 ≤ operandAddress ((machine 257 0 [] [(257, 4096)]).mem.get 257) := by decide
theorem witness_LoadStore_noOperand : 4096 ≤ (machine 4096 0 [] []).pc.toNat := by decide
theorem witness_Div : (machine 257 0 [(1, 1)] []).readReg 1 ≠ 0 ∧ (machine 257 0 [] []).readReg 1 = 0 := by decide
theorem witness_Signed32 :
    (0xFFFF : BitVec 32) = ((machine 257 0 [(0, 0xFFFF), (1, 0xFFFF)] []).readReg 0).setWidth 32 ∧
    (0xFFFF : BitVec 32) = ((machine 257 0 [(0, 0xFFFF), (1, 0xFFFF)] []).readReg 1).setWidth 32 ∧
    (0xFFFF : BitVec 32) ≠ 0 := by decide

theorem witness_StepRuns :
    (machine 4095 0 [] [(4095, 0x8801)]).status = .running ∧ (machine 4095 0 [] [(4095, 0x8801)]).pc.toNat < 4096 ∧
    decode ((machine 4095 0 [] [(4095, 0x8801)]).mem.get 4095) = .instr (.add 0 1) := by decide
theorem witness_InvalidWord :
    (machine 256 0 [] [(256, 0x6000)]).pc.toNat < 4096 ∧
    0x6000 = (machine 256 0 [] [(256, 0x6000)]).mem.get 256 := by decide
theorem witness_InvalidWord_opcode : ∀ k, opcodeNumber k ≠ (decodeFields 0x6000).opcode := by
  intro k
  cases k <;> decide
theorem witness_FetchPastTheEnd : (machine 4096 0 [] []).status = .running ∧ 4096 ≤ (machine 4096 0 [] []).pc.toNat := by
  decide
theorem witness_NoStepOutsideARun : State.reset.status ≠ .running := by decide
theorem witness_RunningMachineAlwaysSteps : (machine 256 0 [] []).status = .running := by decide
theorem witness_RunEnds_halt : step (machine 256 0 [] []) = .next { machine 257 0 [] [] with status := .halted } := rfl
theorem witness_RunEnds_runs : step (machine 256 0 [] [(256, 0x1000)]) = .next (machine 257 0 [] [(256, 0x1000)]) := rfl
theorem witness_ErrorsOfEachInstruction :
    exec (.div 0 1) (machine 257 0 [] []) =
      .next { machine 257 0 [] [] with status := .failed .divisionByZero } ∧
    exec (.setreg 0 1) (machine 4096 0 [] []) =
      .next { machine 4096 0 [] [] with status := .failed (.invalidMemoryLocation 4096) } ∧
    exec (.load 0 1) (machine 257 0 [] [(257, 4096)]) =
      .next { machine 258 0 [] [(257, 4096)] with status := .failed (.invalidMemoryLocation 4096) } ∧
    exec (.add 0 1) (machine 257 0 [] []) = .next (machine 257 0 [] []) := ⟨rfl, rfl, rfl, rfl⟩
theorem witness_FailedStep_fetch : step (machine 4096 0 [] []) =
    .next { machine 4096 0 [] [] with status := .failed (.invalidMemoryLocation 4096) } := rfl
theorem witness_FailedStep_operand : step (machine 4095 0 [] [(4095, 0x8203)]) =
    .next { machine 4096 0 [] [(4095, 0x8203)] with status := .failed (.invalidMemoryLocation 4096) } := rfl
theorem witness_FailedStep_data : step (machine 256 0 [] [(256, 0x8403), (257, 0x1000)]) =
    .next { machine 258 0 [] [(256, 0x8403), (257, 0x1000)] with
      status := .failed (.invalidMemoryLocation 4096) } := rfl
theorem witness_FailedStep_opcode : step (machine 256 0 [] [(256, 0x8000)]) =
    .next { machine 257 0 [] [(256, 0x8000)] with status := .failed (.invalidOpcode 7 0x8000) } := rfl
theorem witness_PcAfterEachInstruction :
    decode ((machine 256 0 [] [(256, 0x8203), (257, 5)]).mem.get 256) = .instr (.setreg 0 3) ∧
    step (machine 256 0 [] [(256, 0x8203), (257, 5)]) = .next (machine 258 0 [(3, 5)] [(256, 0x8203), (257, 5)]) :=
  ⟨by decide, rfl⟩
theorem witness_PcAfterEachInstruction_notFailed (e : RunError) :
    (machine 258 0 [(3, 5)] [(256, 0x8203), (257, 5)]).status ≠ .failed e := by
  show Status.running ≠ _
  simp
theorem witness_Flags_others : exec (.and 0 1) (machine 257 7 [] []) = .next (machine 257 7 [] []) ∧
    (Instr.and 0 1).mnemonic ∉ ([.add, .sub, .mul, .div] : List Config.Mnemonic) ∧
    (Instr.and 0 1).mnemonic ≠ .cmp := ⟨rfl, by decide, by decide⟩
theorem witness_OnlyStore : exec (.store 5 0) (machine 257 0 [(5, 9)] [(257, 4095)]) =
    .next (machine 258 0 [(5, 9)] [(257, 4095), (4095, 9)]) ∧
    exec (.and 0 1) (machine 257 7 [] []) = .next (machine 257 7 [] []) := ⟨rfl, rfl⟩
theorem witness_Registers : exec (.setreg 0 3) (machine 257 0 [] [(257, 5)]) =
    .next (machine 258 0 [(3, 5)] [(257, 5)]) ∧ (3 : RegField) ∉ registersRead (.setreg 0 3) ∧
    (3 : RegField) ∈ registersWritten (.setreg 0 3) ∧ (4 : RegField) ∉ registersWritten (.setreg 0 3) :=
  ⟨rfl, by decide, by decide, by decide⟩
theorem witness_Registers_failed : (machine 4096 0 [] []).status = .running ∧
    exec (.setreg 0 3) (machine 4096 0 [] []) =
      .next { machine 4096 0 [] [] with status := .failed (.invalidMemoryLocation 4096) } ∧
    (3 : RegField) ∉ registersRead (.setreg 0 3) ∧ (3 : RegField) ∈ registersWritten (.setreg 0 3) :=
  ⟨rfl, rfl, by decide, by decide⟩
theorem witness_OverflowBit : SameButOverflow (machine 256 0 [] []) (machine 256 1 [] []) :=
  ⟨rfl, rfl, rfl, rfl, rfl, rfl, fun i hi => by
    show (1#8).getLsbD i = (0#8).getLsbD i
    rcases Nat.lt_or_ge i 8 with h | h
    · interval_cases i <;> rfl
    · rw [BitVec.getLsbD_of_ge _ _ h, BitVec.getLsbD_of_ge _ _ h]⟩
theorem witness_StoreIsSeen :
    (machine 257 0 [(5, 0x1000)] [(257, 258)]).mem.wf ∧
    (machine 257 0 [(5, 0x1000)] [(257, 258)]).pc.toNat + 1 < 4096 ∧
    operandAddress ((machine 257 0 [(5, 0x1000)] [(257, 258)]).mem.get 257) =
      (machine 257 0 [(5, 0x1000)] [(257, 258)]).pc.toNat + 1 ∧
    decode ((machine 257 0 [(5, 0x1000)] [(257, 258)]).readReg 5) = .instr (.noop 0) := by decide
theorem witness_Inv : Inv (machine 4096 5 [(3, 7)] [(0, 1), (4095, 2)]) :=
  ⟨by decide, by decide, by decide, trivial⟩
theorem witness_StepKeepsInv : Inv (machine 256 0 [] [(256, 0x1000)]) ∧
    step (machine 256 0 [] [(256, 0x1000)]) = .next (machine 257 0 [] [(256, 0x1000)]) :=
  ⟨⟨by decide, by decide, by decide, trivial⟩, rfl⟩
theorem witness_HostKeepsInv : Inv State.reset ∧
    hostCall (.setMemory 4095 9) State.reset = .next ({ State.reset with mem := [(4095, 9)] }, .ok) :=
  ⟨⟨by decide, by decide, by decide, trivial⟩, rfl⟩
theorem witness_MemoryAccess : 4096 ≤ 4096 ∧ 4095 < 4096 ∧ State.reset.mem.wf := by decide
theorem witness_RunStarts : State.reset.status ≠ .running ∧
    hostRun 1 State.reset = some { State.reset with pc := 257, status := .halted } := by decide
theorem witness_RunStarts_converse :
    core.run 1 (startRun State.reset) = .next { State.reset with pc := 257, status := .halted } ∧
    Ended { State.reset with pc := 257, status := .halted } := ⟨rfl, .inl rfl⟩
theorem witness_GreaterBudgets : 1 ≤ 2 ∧
    hostRun 1 State.reset = some { State.reset with pc := 257, status := .halted } := by decide
theorem witness_HostAccesses : State.reset.status ≠ .running ∧ 16 ≤ 16 ∧ 15 < 16 ∧ 4096 ≤ 4096 ∧ 4095 < 4096 := by
  decide
theorem witness_LoadWords : State.reset.mem.wf ∧ State.reset.status ≠ .running ∧
    ([1, 2, 3] : List Word)[1]? = some 2 ∧ 4094 + 1 < 4096 ∧ 4094 + 3 ≤ 4097 := by decide
theorem witness_HostErrors : hostCall (.getRegister 16) State.reset =
      .next (State.reset, .error (.invalidRegister 16)) ∧
    hostCall (.setMemory 4096 1) State.reset = .next (State.reset, .error (.invalidMemoryLocation 4096)) ∧
    hostCall (.load 4095 [1, 2]) State.reset =
      .next ({ State.reset with mem := [(4095, 1)] }, .error (.invalidMemoryLocation 4096)) := ⟨rfl, rfl, rfl⟩
theorem witness_HostObservations : State.reset.status ≠ .running ∧
    encodeFields ⟨21, 0xF, 0x1F, 5⟩ = some 0x9CFF ∧ 21 ≤ 21 ∧ 21 < 22 := by decide
theorem witness_HostRefused : (machine 256 0 [] []).status = .running := by decide
theorem witness_Placed : State.reset.mem.wf ∧ decodeTableWord 16 0x8835 = some (.add 3 5) ∧
    State.reset.pc.toNat + 2 ≤ 4096 := by decide

end Sys2Proof.Machine.Tests
end

section
/-! PROOFS. The family of 10_state.md: the flag predicates and setters bit by bit, and the registers an
instruction can reach. The second rests on three facts: an instruction keeps every register it does not write;
giving another value to a register that it neither reads nor writes commutes with executing it; and only
SETREG and LOAD write a register that they do not read, which they overwrite unless they fail. -/

namespace Sys2Proof.Machine

/-! ### The comparison setters, bit by bit -/

theorem setComparison_getLsbD_gt_first (s : State) (gt lt : Bool) (i : Nat) :
    (s.setComparison gt lt).flags.getLsbD i =
      if i = 2 then gt else if i = 1 then lt else s.flags.getLsbD i :=
  (setComparison_getLsbD s gt lt i).trans (ite_ite_comm _ _ _ _ (by omega))

theorem setEqual_getLsbD (s : State) (i : Nat) :
    s.setEqual.flags.getLsbD i = if i = 2 ∨ i = 1 then false else s.flags.getLsbD i :=
  (setComparison_getLsbD_gt_first s false false i).trans (ite_or _ _ _ _).symm

/-- Settles O49: R29 for the predicates, R30 and R31 for the setters, each by its own lemma. -/
theorem flagSettersTouchOnlyTheirBits : Obligations.FlagSettersTouchOnlyTheirBits := fun st i =>
  ⟨isEqual_iff st, isGreater_iff st, isLesser_iff st, setEqual_getLsbD st i,
    setComparison_getLsbD_gt_first st true false i, setComparison_getLsbD_gt_first st false true i,
    setOverflow_getLsbD st i, clearOverflow_getLsbD st i⟩

/-! ### Two register writes in a row -/

theorem writeReg_writeReg_same (s : State) (r : RegField) (v w : Word) :
    (s.writeReg r v).writeReg r w = s.writeReg r w := by
  simp [State.writeReg]

theorem writeReg_comm (s : State) {r t : RegField} (h : r ≠ t) (v w : Word) :
    (s.writeReg r v).writeReg t w = (s.writeReg t w).writeReg r v := by
  have hne : r.toNat ≠ t.toNat := fun e => h (BitVec.eq_of_toNat_eq e)
  simp [State.writeReg, Vector.set_comm _ _ hne]

theorem arithFinish_writeReg_comm (s : State) {r t : RegField} (h : r ≠ t) (v : Word) (wide : Int) :
    arithFinish t wide (s.writeReg r v) = (arithFinish t wide s).writeReg r v := by
  unfold arithFinish
  rw [writeReg_comm s h]
  split <;> rfl

/-! ### Executing after another value was put into a register -/

/-- The outcome in which register `r` holds `v` and the rest is the given outcome's. -/
def withRegister (r : RegField) (v : Word) : Result → Result
  | .next s => .next (s.writeReg r v)
  | .fault f => .fault f
  | .refused f => .refused f

/-- `changed` is `original` with `v` in register `r`. -/
def Carries (r : RegField) (v : Word) (original changed : Result) : Prop :=
  changed = withRegister r v original

theorem jumpIf_carries (c : Bool) (m : Memloc) (s : State) (r : RegField) (v : Word) :
    Carries r v (jumpIf c m s) (jumpIf c m (s.writeReg r v)) := by
  cases c <;> rfl

theorem raise_carries (r : RegField) (v : Word) (e : RunError) (s : State) :
    Carries r v (raise e s) (raise e (s.writeReg r v)) := rfl

/-- A relation between the outcomes with and without `v` in `r` holds after a fetch if it holds of every raise
and of what the instruction does with the word. -/
theorem fetchThen_rel {R : Result → Result → Prop} {k : Word → State → Result} {r : RegField} {v : Word}
    {s : State} (hraise : ∀ e s, R (raise e s) (raise e (s.writeReg r v)))
    (hk : ∀ w, R (k w s.advancePc) (k w (s.advancePc.writeReg r v))) :
    R (fetchThen s k) (fetchThen (s.writeReg r v) k) := by
  rcases Nat.lt_or_ge s.pc.toNat 4096 with h | h
  · rw [fetchThen_of_lt k h, fetchThen_of_lt (s := s.writeReg r v) k h]
    exact hk _
  · rw [fetchThen_of_ge k h, fetchThen_of_ge (s := s.writeReg r v) k h]
    exact hraise _ s

theorem readThen_of_lt {s : State} {a : Nat} (k : Word → Result) (h : a < 4096) :
    readThen s a k = k (s.mem.get a) := by
  simp only [readThen, memRead_of_lt h]

theorem readThen_of_ge {s : State} {a : Nat} (k : Word → Result) (h : 4096 ≤ a) :
    readThen s a k = raise (.invalidMemoryLocation a) s := by
  simp only [readThen, memRead_of_ge h]

theorem readThen_rel {R : Result → Result → Prop} {k k' : Word → Result} {r : RegField} {v : Word}
    {s : State} {a : Nat} (hraise : ∀ e s, R (raise e s) (raise e (s.writeReg r v)))
    (hk : ∀ w, R (k w) (k' w)) :
    R (readThen s a k) (readThen (s.writeReg r v) a k') := by
  rcases Nat.lt_or_ge a 4096 with h | h
  · rw [readThen_of_lt k h, readThen_of_lt k' h]
    exact hk _
  · rw [readThen_of_ge k h, readThen_of_ge k' h]
    exact hraise _ s

theorem storeOrRaise_carries (s : State) (a : Nat) (w : Word) (r : RegField) (v : Word) :
    Carries r v (storeOrRaise s a w) (storeOrRaise (s.writeReg r v) a w) := by
  rcases Nat.lt_or_ge a 4096 with h | h
  · simp only [storeOrRaise, memWrite_of_lt w h]
    rfl
  · simp only [storeOrRaise, memWrite_of_ge w h]
    exact raise_carries r v _ s

/-! ### One lemma per shape of operation -/

theorem regValue_writeReg_other (s : State) {r q : RegField} (h : q ≠ r) (v : Word) :
    regValue (s.writeReg r v) q = regValue s q :=
  congrArg BitVec.toNat (readReg_writeReg_other s r q v h)

/-- Arithmetic on the operands `x[a]` and `x[t]`. -/
theorem arithFinish_operands_writeReg (f : Nat → Nat → Int) (s : State) {a t r : RegField} (h : r ∉ [a, t])
    (v : Word) :
    arithFinish t (f (regValue (s.writeReg r v) a) (regValue (s.writeReg r v) t)) (s.writeReg r v) =
      (arithFinish t (f (regValue s a) (regValue s t)) s).writeReg r v := by
  obtain ⟨ha, ht⟩ : r ≠ a ∧ r ≠ t := by simpa using h
  rw [regValue_writeReg_other s ha.symm, regValue_writeReg_other s ht.symm, arithFinish_writeReg_comm s ht]

/-- A bitwise operation on the operands `x[a]` and `x[t]`. -/
theorem writeReg_binary_writeReg (f : Word → Word → Word) (s : State) {a t r : RegField} (h : r ∉ [a, t])
    (v : Word) :
    (s.writeReg r v).writeReg t (f ((s.writeReg r v).readReg a) ((s.writeReg r v).readReg t)) =
      (s.writeReg t (f (s.readReg a) (s.readReg t))).writeReg r v := by
  obtain ⟨ha, ht⟩ : r ≠ a ∧ r ≠ t := by simpa using h
  rw [readReg_writeReg_other s r a v ha.symm, readReg_writeReg_other s r t v ht.symm, writeReg_comm s ht]

/-- A shift or NOT, on the operand `x[t]`: the binary shape with one register as both operands. -/
theorem writeReg_unary_writeReg (f : Word → Word) (s : State) {t r : RegField} (h : r ∉ [t]) (v : Word) :
    (s.writeReg r v).writeReg t (f ((s.writeReg r v).readReg t)) =
      (s.writeReg t (f (s.readReg t))).writeReg r v :=
  writeReg_binary_writeReg (fun x _ => f x) s (by simpa using h) v

theorem execDiv_carries (s : State) {a t r : RegField} (h : r ∉ [a, t]) (v : Word) :
    Carries r v (execDiv a t s) (execDiv a t (s.writeReg r v)) := by
  have ht : regValue (s.writeReg r v) t = regValue s t :=
    regValue_writeReg_other s (by rintro rfl; simp at h) v
  by_cases h0 : regValue s t = 0
  · rw [execDiv, if_pos h0, execDiv, if_pos (ht.trans h0)]
    exact raise_carries r v .divisionByZero s
  · rw [execDiv, if_neg h0, execDiv, if_neg (ht.trans_ne h0)]
    exact congrArg _ (arithFinish_operands_writeReg (fun x y => ((x / y : Nat) : Int)) s h v)

/-- Another value in a register that the instruction neither reads nor writes is carried through. -/
theorem exec_carries (i : Instr) (s : State) (r : RegField) (v : Word)
    (hread : r ∉ registersRead i) (hwritten : r ∉ registersWritten i) :
    Carries r v (exec i s) (exec i (s.writeReg r v)) := by
  cases i with
  | halt m => rfl
  | noop m => rfl
  | jmp m => rfl
  | jeq m => exact jumpIf_carries s.isEqual m s r v
  | jgt m => exact jumpIf_carries s.isGreater m s r v
  | jlt m => exact jumpIf_carries s.isLesser m s r v
  | setreg a t =>
    have ht : r ≠ t := by simpa [registersWritten] using hwritten
    exact fetchThen_rel (R := Carries r v) (k := fun lit s' => .next (s'.writeReg t lit)) (raise_carries r v)
      fun lit => congrArg _ (writeReg_comm s.advancePc ht v lit)
  | load a t =>
    have ht : r ≠ t := by simpa [registersWritten] using hwritten
    exact fetchThen_rel (R := Carries r v)
      (k := fun addr s' => readThen s' (operandAddress addr) fun w => .next (s'.writeReg t w))
      (raise_carries r v) fun _ => readThen_rel (R := Carries r v) (raise_carries r v)
        fun w => congrArg _ (writeReg_comm s.advancePc ht v w)
  | store a t =>
    have ha : a ≠ r := by simpa [registersRead, eq_comm] using hread
    refine fetchThen_rel (R := Carries r v)
      (k := fun addr s' => storeOrRaise s' (operandAddress addr) (s'.readReg a)) (raise_carries r v)
      fun addr => ?_
    rw [readReg_writeReg_other s.advancePc r a v ha]
    exact storeOrRaise_carries s.advancePc _ _ r v
  | add a t => exact congrArg _ (arithFinish_operands_writeReg (fun x y => x + y) s hread v)
  | sub a t => exact congrArg _ (arithFinish_operands_writeReg (fun x y => x - y) s hread v)
  | mul a t => exact congrArg _ (arithFinish_operands_writeReg (fun x y => x * y) s hread v)
  | div a t => exact execDiv_carries s hread v
  | cmp a t =>
    obtain ⟨ha, ht⟩ : r ≠ a ∧ r ≠ t := by simpa [registersRead] using hread
    rw [exec_cmp, exec_cmp, regValue_writeReg_other s ha.symm, regValue_writeReg_other s ht.symm]
    rfl
  | and a t => exact congrArg _ (writeReg_binary_writeReg (· &&& ·) s hread v)
  | or a t => exact congrArg _ (writeReg_binary_writeReg (· ||| ·) s hread v)
  | xor a t => exact congrArg _ (writeReg_binary_writeReg (· ^^^ ·) s hread v)
  | shl n t => exact congrArg _ (writeReg_unary_writeReg (· <<< shiftCount n) s hread v)
  | shr n t => exact congrArg _ (writeReg_unary_writeReg (· >>> shiftCount n) s hread v)
  | not a t => exact congrArg _ (writeReg_unary_writeReg (~~~ ·) s hread v)

/-! ### A register that is written and not read: the target of SETREG and LOAD -/

/-- The step completes with what it would have answered anyway, or fails with `v` still in the register. -/
def OverwritesUnlessFailed (r : RegField) (v : Word) (original changed : Result) : Prop :=
  ∃ s', original = .next s' ∧
    (changed = .next s' ∧ (∀ e, s'.status ≠ .failed e) ∨
      changed = .next (s'.writeReg r v) ∧ ∃ e, s'.status = .failed e)

theorem raise_overwrites (r : RegField) (v : Word) (e : RunError) (s : State) :
    OverwritesUnlessFailed r v (raise e s) (raise e (s.writeReg r v)) :=
  ⟨_, rfl, .inr ⟨rfl, e, rfl⟩⟩

theorem writeReg_overwrites {s : State} (hrun : s.status = .running) (r : RegField) (v w : Word) :
    OverwritesUnlessFailed r v (.next (s.writeReg r w)) (.next ((s.writeReg r v).writeReg r w)) :=
  ⟨_, rfl, .inl ⟨congrArg _ (writeReg_writeReg_same s r v w), by simp [hrun]⟩⟩

theorem exec_setreg_overwrites {s : State} (hrun : s.status = .running) (a r : RegField) (v : Word) :
    OverwritesUnlessFailed r v (exec (.setreg a r) s) (exec (.setreg a r) (s.writeReg r v)) :=
  fetchThen_rel (k := fun lit s' => .next (s'.writeReg r lit)) (raise_overwrites r v) fun lit =>
    writeReg_overwrites (s := s.advancePc) hrun r v lit

theorem exec_load_overwrites {s : State} (hrun : s.status = .running) (a r : RegField) (v : Word) :
    OverwritesUnlessFailed r v (exec (.load a r) s) (exec (.load a r) (s.writeReg r v)) :=
  fetchThen_rel (k := fun addr s' => readThen s' (operandAddress addr) fun w => .next (s'.writeReg r w))
    (raise_overwrites r v) fun _ => readThen_rel (raise_overwrites r v) fun w =>
      writeReg_overwrites (s := s.advancePc) hrun r v w

theorem eq_setreg_or_load_of_written_not_read {i : Instr} {r : RegField} (hwritten : r ∈ registersWritten i)
    (hread : r ∉ registersRead i) : ∃ a, i = .setreg a r ∨ i = .load a r := by
  cases i <;> simp_all [registersRead, registersWritten]

theorem exec_overwrites {i : Instr} {s : State} {r : RegField} (hrun : s.status = .running)
    (hwritten : r ∈ registersWritten i) (hread : r ∉ registersRead i) (v : Word) :
    OverwritesUnlessFailed r v (exec i s) (exec i (s.writeReg r v)) := by
  obtain ⟨a, rfl | rfl⟩ := eq_setreg_or_load_of_written_not_read hwritten hread
  · exact exec_setreg_overwrites hrun a r v
  · exact exec_load_overwrites hrun a r v

/-! ### The registers an instruction keeps -/

/-- The outcome, if it is a next state, holds in `r` what `s` holds there. -/
def KeepsRegister (r : RegField) (s : State) : Result → Prop
  | .next s' => s'.readReg r = s.readReg r
  | .fault _ => True
  | .refused _ => True

theorem jumpIf_keepsRegister (c : Bool) (m : Memloc) (s : State) (r : RegField) :
    KeepsRegister r s (jumpIf c m s) := by
  cases c <;> rfl

theorem exec_keepsRegister (i : Instr) (s : State) (r : RegField) (h : r ∉ registersWritten i) :
    KeepsRegister r s (exec i s) := by
  cases i with
  | halt m => rfl
  | noop m => rfl
  | jmp m => rfl
  | jeq m => exact jumpIf_keepsRegister s.isEqual m s r
  | jgt m => exact jumpIf_keepsRegister s.isGreater m s r
  | jlt m => exact jumpIf_keepsRegister s.isLesser m s r
  | setreg a t =>
    obtain ⟨-, e⟩ | ⟨-, e⟩ := exec_setreg_cases s a t <;> rw [e]
    · exact (advancePc_writeReg_frame s t _).reg_eq r h
    · rfl
  | load a t =>
    obtain ⟨-, -, e⟩ | ⟨-, -, e⟩ | ⟨-, e⟩ := exec_load_cases s a t <;> rw [e]
    · exact (advancePc_writeReg_frame s t _).reg_eq r h
    · rfl
    · rfl
  | store a t => obtain ⟨-, -, e⟩ | ⟨-, -, e⟩ | ⟨-, e⟩ := exec_store_cases s a t <;> rw [e] <;> rfl
  | add a t => exact (arithFinish_frame s t _).reg_eq r h
  | sub a t => exact (arithFinish_frame s t _).reg_eq r h
  | mul a t => exact (arithFinish_frame s t _).reg_eq r h
  | div a t =>
    obtain ⟨-, e⟩ | ⟨-, e⟩ := exec_div_cases s a t <;> rw [e]
    · exact (arithFinish_frame s t _).reg_eq r h
    · rfl
  | cmp a t =>
    rw [exec_cmp]
    rfl
  | and a t => exact (writeReg_frame s t _).reg_eq r h
  | or a t => exact (writeReg_frame s t _).reg_eq r h
  | xor a t => exact (writeReg_frame s t _).reg_eq r h
  | shl n t => exact (writeReg_frame s t _).reg_eq r h
  | shr n t => exact (writeReg_frame s t _).reg_eq r h
  | not a t => exact (writeReg_frame s t _).reg_eq r h

/-- Settles O42: the frame is `exec_keepsRegister`. A register that is not read is either written, and then
overwritten by a completing instruction (`exec_overwrites`), or not reached at all (`exec_carries`). -/
theorem registersReadAndWrittenByEachInstruction : Obligations.RegistersReadAndWrittenByEachInstruction := by
  intro i st st' hrun h
  refine ⟨fun r hr => ?_, fun r v hread => ?_⟩
  · have hkeeps := exec_keepsRegister i st r hr
    rwa [h] at hkeeps
  · by_cases hw : r ∈ registersWritten i
    · obtain ⟨s', e, ⟨hu, hok⟩ | ⟨hu, err, hfail⟩⟩ := exec_overwrites hrun hw hread v
      all_goals obtain rfl := Host.Outcome.next.inj (h.symm.trans e)
      · exact ⟨_, hu, rfl, rfl, rfl, rfl, fun _ _ => rfl, fun hn => absurd hw hn,
          fun e he => absurd he (hok e), fun _ _ => rfl⟩
      · exact ⟨_, hu, rfl, rfl, rfl, rfl, fun q hq => readReg_writeReg_other _ r q v hq,
          fun hn => absurd hw hn, fun _ _ => readReg_writeReg_same _ r v, fun hok => absurd hfail (hok err)⟩
    · have hu : exec i (st.writeReg r v) = .next (st'.writeReg r v) :=
        (exec_carries i st r v hread hw).trans (congrArg (withRegister r v) h)
      exact ⟨_, hu, rfl, rfl, rfl, rfl, fun q hq => readReg_writeReg_other _ r q v hq,
        fun _ => readReg_writeReg_same _ r v, fun _ _ => readReg_writeReg_same _ r v,
        fun _ hw' => absurd hw' hw⟩

end Sys2Proof.Machine
end

section
/-! PROOFS. The family of 20_memory.md (R51, R52): what a bounds-checked read finds after a write. -/

namespace Sys2Proof.Machine

/-- On a canonical memory a read inside the address space finds the value just written there. -/
theorem memRead_set_same {s : State} {a : Nat} (v : Word) (ha : a < 4096) (hwf : s.mem.wf) :
    memRead { s with mem := s.mem.set a v } a = .ok v := by
  rw [memRead_of_lt ha, get_set_same a v hwf.1]

/-- A write leaves the answer at every other address alone, inside the address space and outside it. -/
theorem memRead_set_other (s : State) {a b : Nat} (v : Word) (hne : b ≠ a) :
    memRead { s with mem := s.mem.set a v } b = memRead s b := by
  obtain hb | hb := Nat.lt_or_ge b 4096
  · rw [memRead_of_lt hb, memRead_of_lt hb, get_set_other s.mem v hne]
  · rw [memRead_of_ge hb, memRead_of_ge hb]

/-- Settles O50: at 4096 or above both calls fail; below, a write changes the memory only, and
`memRead_set_same` and `memRead_set_other` say what is read after it. -/
theorem memoryAccessIsBoundsChecked : Obligations.MemoryAccessIsBoundsChecked := by
  intro st a v
  refine ⟨fun hge => ⟨memRead_of_ge hge, memWrite_of_ge v hge⟩, fun hlt => ⟨memRead_of_lt hlt, ?_⟩⟩
  exact ⟨_, memWrite_of_lt v hlt, memRead_set_same v hlt, fun _ hne => memRead_set_other st v hne,
    rfl, rfl, rfl, rfl⟩

end Sys2Proof.Machine
end

section
/-! PROOFS. The family of 30_encoding.md (R75, R77): Decode's tuple by the word's value, and the word that
Encode builds. -/

namespace Sys2Proof.Machine

/-! ### Decode, by the word's value -/

theorem decodeFields_of_lt {w : Word} (h : w.toNat < 0x8000) :
    decodeFields w = { opcode := w.toNat / 4096, s := 0, t := 0, memloc := w.toNat % 4096 } := by
  have hbit : w.getLsbD 15 = false := by rw [getLsbD_15]; simpa using h
  have hop : w.toNat / 4096 % 8 = w.toNat / 4096 := Nat.mod_eq_of_lt (by omega)
  rw [decodeFields, if_neg (by rw [hbit]; decide)]
  simp [Nat.shiftRight_eq_div_pow, hop]

theorem decodeFields_of_ge {w : Word} (h : 0x8000 ≤ w.toNat) :
    decodeFields w =
      { opcode := w.toNat / 512 % 64 + 7, s := w.toNat / 16 % 16, t := w.toNat % 16, memloc := 0 } := by
  have hbit : w.getLsbD 15 = true := by rw [getLsbD_15]; simpa using h
  rw [decodeFields, if_pos hbit]
  simp [Nat.shiftRight_eq_div_pow]

/-- A family-0 opcode is at most 7, and a family-1 opfield at most 63. -/
theorem decodeFields_opcode_le (w : Word) : (decodeFields w).opcode ≤ 70 := by
  obtain h | h := Nat.lt_or_ge w.toNat 0x8000
  · rw [decodeFields_of_lt h]
    show w.toNat / 4096 ≤ 70
    omega
  · rw [decodeFields_of_ge h]
    show w.toNat / 512 % 64 + 7 ≤ 70
    omega

/-- Settles O2: one lemma for each family, and the bound of both. -/
theorem decodedFieldsAreTheWordsBits : Obligations.DecodedFieldsAreTheWordsBits := fun w =>
  ⟨decodeFields_of_lt, decodeFields_of_ge, decodeFields_opcode_le w⟩

/-! ### Encode: the formula's disjoint fields add up to the family's word -/

/-- A field that fits below bit `k` is added, where the bits it is put over are 0. -/
theorem or_eq_add_of_dvd {a b : Nat} (k : Nat) (ha : 2 ^ k ∣ a) (hb : b < 2 ^ k) : a ||| b = a + b := by
  obtain ⟨c, rfl⟩ := ha
  exact (Nat.two_pow_add_eq_or_of_lt hb c).symm

theorem packWord_of_lt {o : Nat} (s t m : Nat) (h : o < 8) :
    packWord o s t m = family0Word (BitVec.ofNat 3 o) (BitVec.ofNat 12 m) := by
  have hm : m &&& 0xFFF = m % 4096 := Nat.and_two_pow_sub_one_eq_mod m 12
  have hsum : o <<< 12 ||| m % 4096 = o * 4096 + m % 4096 := by
    rw [Nat.shiftLeft_eq, or_eq_add_of_dvd 12 (by omega) (by omega)]
  apply BitVec.eq_of_toNat_eq
  rw [family0Word_toNat, packWord, if_pos h, hm, hsum]
  simp
  omega

theorem packWord_of_ge {o : Nat} (s t m : Nat) (h : 8 ≤ o) (hle : o ≤ 70) :
    packWord o s t m =
      family1Word (BitVec.ofNat 6 (o - 7)) 0 (BitVec.ofNat 4 s) (BitVec.ofNat 4 t) := by
  have hs : s &&& 0xF = s % 16 := Nat.and_two_pow_sub_one_eq_mod s 4
  have ht : t &&& 0xF = t % 16 := Nat.and_two_pow_sub_one_eq_mod t 4
  have hsum : 0x8000 ||| (o - 7) <<< 9 ||| (s % 16) <<< 4 ||| t % 16 =
      0x8000 + (o - 7) * 512 + s % 16 * 16 + t % 16 := by
    rw [Nat.shiftLeft_eq, Nat.shiftLeft_eq, or_eq_add_of_dvd (a := 0x8000) 15 (by omega) (by omega),
      or_eq_add_of_dvd (a := 0x8000 + _) 9 (by omega) (by omega), or_eq_add_of_dvd 4 (by omega) (by omega)]
  apply BitVec.eq_of_toNat_eq
  rw [family1Word_toNat, packWord, if_neg (by omega), hs, ht, hsum]
  simp
  omega

/-- Settles O3: an opcode of the domain is encoded, by its family's formula. -/
theorem encodeBuildsTheFamilysWord : Obligations.EncodeBuildsTheFamilysWord := by
  intro o s t m hle
  rw [encodeFields, if_pos hle]
  obtain hlt | hge := Nat.lt_or_ge o 8
  · rw [if_pos hlt, packWord_of_lt s t m hlt]
  · rw [if_neg (by omega), packWord_of_ge s t m hge (by omega)]

end Sys2Proof.Machine
end

section
/-! PROOFS. The family of 41_control_flow.md (R120 to R125): what a family-0 word decodes to, and what a jump
makes of the pc. -/

namespace Sys2Proof.Machine

/-! ### The word -/

theorem decodeFields_family0Word (op : BitVec 3) (m : Memloc) :
    decodeFields (family0Word op m) = { opcode := op.toNat, s := 0, t := 0, memloc := m.toNat } := by
  have hop := op.isLt
  have hm := m.isLt
  have hw := family0Word_toNat op m
  have hdiv : (family0Word op m).toNat / 4096 = op.toNat := by omega
  have hmod : (family0Word op m).toNat % 4096 = m.toNat := by omega
  rw [decodeFields_of_lt (by omega), hdiv, hmod]

theorem decode_family0Word {op : BitVec 3} {k : Config.Mnemonic} (hk : mnemonicOf op.toNat = some k)
    (m : Memloc) : decode (family0Word op m) = .instr (mkInstr k 0 0 m) := by
  rw [decode_eq_dispatch, decodeFields_family0Word, dispatch, hk]
  simp

/-! ### The pc after a jump -/

theorem jumpTarget_eq_ofNat (m : Memloc) : jumpTarget m = BitVec.ofNat 16 m.toNat :=
  (BitVec.ofNat_toNat 16 m).symm

/-- A jump whose condition says `p` writes the pc, its target or the old value as `p` says. -/
theorem jumpIf_eq_of_iff {c : Bool} {p : Prop} [Decidable p] (hp : c = true ↔ p) (m : Memloc) (s : State) :
    jumpIf c m s = .next { s with pc := if p then BitVec.ofNat 16 m.toNat else s.pc } := by
  obtain ⟨hc, hjump⟩ | ⟨hc, hjump⟩ := jumpIf_cases s m c
  · rw [hjump, if_pos (hp.mp hc), jumpTarget_eq_ofNat, State.setPc]
  · rw [hjump, if_neg (by simp [← hp, hc])]

/-! ### The instructions -/

/-- Settles O10. -/
theorem haltEndsTheRunInSuccess : Obligations.HaltEndsTheRunInSuccess := fun m st =>
  ⟨decode_family0Word (k := .halt) (by decide) m, exec_halt st m⟩

/-- Settles O11. -/
theorem noopChangesNothing : Obligations.NoopChangesNothing := fun m st =>
  ⟨decode_family0Word (k := .noop) (by decide) m, exec_noop st m⟩

/-- Settles O12. -/
theorem jmpGoesToItsTarget : Obligations.JmpGoesToItsTarget := by
  refine fun m st => ⟨decode_family0Word (k := .jmp) (by decide) m, ?_⟩
  rw [exec_jmp, jumpTarget_eq_ofNat, State.setPc]

/-- Settles O13: `Equal()` reads bits 2 and 1. -/
theorem jeqJumpsIfEqual : Obligations.JeqJumpsIfEqual := fun m st =>
  ⟨decode_family0Word (k := .jeq) (by decide) m, jumpIf_eq_of_iff (isEqual_iff st) m st⟩

/-- Settles O14: `Greater()` reads bit 2. -/
theorem jgtJumpsIfGreater : Obligations.JgtJumpsIfGreater := fun m st =>
  ⟨decode_family0Word (k := .jgt) (by decide) m, jumpIf_eq_of_iff (isGreater_iff st) m st⟩

/-- Settles O15: `Lesser()` reads bit 1. -/
theorem jltJumpsIfLesser : Obligations.JltJumpsIfLesser := fun m st =>
  ⟨decode_family0Word (k := .jlt) (by decide) m, jumpIf_eq_of_iff (isLesser_iff st) m st⟩

end Sys2Proof.Machine
end

section
/-! PROOFS. The family of 42_data_transfer.md (R140): what a family-1 word decodes to, and what SETREG does on
either side of the end of memory. -/

namespace Sys2Proof.Machine

/-! ### The word -/

/-- The opfield is rebased by 7, and bit 8 is not read. -/
theorem decodeFields_family1Word (o : BitVec 6) (x : BitVec 1) (s t : RegField) :
    decodeFields (family1Word o x s t) =
      { opcode := o.toNat + 7, s := s.toNat, t := t.toNat, memloc := 0 } := by
  have ho := o.isLt
  have hx := x.isLt
  have hs := s.isLt
  have ht := t.isLt
  have hw := family1Word_toNat o x s t
  have hop : (family1Word o x s t).toNat / 512 % 64 = o.toNat := by omega
  have hsrc : (family1Word o x s t).toNat / 16 % 16 = s.toNat := by omega
  have htgt : (family1Word o x s t).toNat % 16 = t.toNat := by omega
  rw [decodeFields_of_ge (by omega), hop, hsrc, htgt]

theorem decode_family1Word {o : BitVec 6} {k : Config.Mnemonic} (hk : mnemonicOf (o.toNat + 7) = some k)
    (x : BitVec 1) (s t : RegField) : decode (family1Word o x s t) = .instr (mkInstr k s t 0) := by
  rw [decode_eq_dispatch, decodeFields_family1Word, dispatch, hk]
  simp

/-! ### SETREG -/

theorem exec_setreg_of_lt {st : State} (s t : RegField) (h : st.pc.toNat < 4096) :
    exec (.setreg s t) st = .next (st.advancePc.writeReg t (st.mem.get st.pc.toNat)) :=
  fetchThen_of_lt (fun lit st' => .next (st'.writeReg t lit)) h

theorem exec_setreg_of_ge {st : State} (s t : RegField) (h : 4096 ≤ st.pc.toNat) :
    exec (.setreg s t) st = .next (badAddress st st.pc.toNat) :=
  fetchThen_of_ge (fun lit st' => .next (st'.writeReg t lit)) h

/-- Settles O16: a completed operand fetch writes the target and the pc only, a failed one the status only. -/
theorem setregLoadsItsInlineLiteral : Obligations.SetregLoadsItsInlineLiteral := by
  intro s t st
  refine ⟨fun x => decode_family1Word (k := .setreg) (by decide) x s t, fun hlt => ?_,
    exec_setreg_of_ge s t⟩
  exact ⟨_, exec_setreg_of_lt s t hlt, readReg_writeReg_same st.advancePc t _, toNat_nextPc st hlt,
    advancePc_writeReg_frame st t _⟩

end Sys2Proof.Machine
end

section
/-! PROOFS. The family of 43_arithmetic.md (R161, R163, R165): ADD and MUL, whose exact result is a natural
number, and the comparison bits that CMP leaves. -/

namespace Sys2Proof.Machine

/-! ### Finishing an exact result that is a natural number -/

theorem overflows_natCast (n : Nat) : overflows (n : Int) = true ↔ 65535 < n := by
  simp only [overflows, Bool.or_eq_true, decide_eq_true_eq]
  omega

theorem arithFinish_natCast_readReg_same (s : State) (t : RegField) (n : Nat) :
    (arithFinish t (n : Int) s).readReg t = BitVec.ofNat 16 n := by
  rw [arithFinish_readReg, if_pos rfl, BitVec.ofInt_natCast]

theorem arithFinish_natCast_ov_iff (s : State) (t : RegField) (n : Nat) :
    (arithFinish t (n : Int) s).flags.getLsbD 0 = true ↔ 65535 < n := by
  rw [arithFinish_getLsbD, if_pos rfl, overflows_natCast]

theorem exec_add_natCast (s : State) (a t : RegField) :
    exec (.add a t) s = .next (arithFinish t ((regValue s a + regValue s t : Nat) : Int) s) := by
  rw [exec_add, Int.natCast_add]

theorem exec_mul_natCast (s : State) (a t : RegField) :
    exec (.mul a t) s = .next (arithFinish t ((regValue s a * regValue s t : Nat) : Int) s) := by
  rw [exec_mul, Int.natCast_mul]

/-! ### ADD and MUL -/

/-- Settles O19: the low 16 bits of the exact sum are the sum of the words. -/
theorem addWritesTheSumAndOverflow : Obligations.AddWritesTheSumAndOverflow := by
  intro s t st
  refine ⟨fun x => decode_family1Word (k := .add) (by decide) x s t, _, exec_add_natCast st s t, ?_,
    arithFinish_natCast_ov_iff st t _, arithFinish_pc st t _, arithFinish_frame st t _⟩
  rw [arithFinish_natCast_readReg_same]
  simp [BitVec.ofNat_add]

/-- Settles O21: the low 16 bits of the exact product are the product of the words. -/
theorem mulWritesTheLowHalfAndOverflow : Obligations.MulWritesTheLowHalfAndOverflow := by
  intro s t st
  refine ⟨fun x => decode_family1Word (k := .mul) (by decide) x s t, _, exec_mul_natCast st s t, ?_,
    arithFinish_natCast_ov_iff st t _, arithFinish_pc st t _, arithFinish_frame st t _⟩
  rw [arithFinish_natCast_readReg_same]
  simp [BitVec.ofNat_mul]

/-! ### CMP -/

@[simp] theorem setComparison_isLesser (s : State) (gt lt : Bool) : (s.setComparison gt lt).isLesser = lt :=
  setComparison_getLsbD s gt lt 1

@[simp] theorem setComparison_isGreater (s : State) (gt lt : Bool) : (s.setComparison gt lt).isGreater = gt :=
  setComparison_getLsbD s gt lt 2

@[simp] theorem setComparison_isEqual (s : State) (gt lt : Bool) :
    (s.setComparison gt lt).isEqual = (!gt && !lt) :=
  congrArg₂ (fun g l => !g && !l) (setComparison_isGreater s gt lt) (setComparison_isLesser s gt lt)

/-- The state that CMP leaves when the operands' values are `x` and `y`. -/
def State.compared (s : State) (x y : Nat) : State := s.setComparison (decide (y < x)) (decide (x < y))

theorem compared_lt_iff (s : State) (x y : Nat) : (s.compared x y).flags.getLsbD 1 = true ↔ x < y := by
  rw [State.compared, setComparison_getLsbD, if_pos rfl, decide_eq_true_iff]

theorem compared_gt_iff (s : State) (x y : Nat) : (s.compared x y).flags.getLsbD 2 = true ↔ y < x := by
  rw [State.compared, setComparison_getLsbD, if_neg (by decide), if_pos rfl, decide_eq_true_iff]

theorem compared_isEqual_iff (s : State) (x y : Nat) : (s.compared x y).isEqual = true ↔ x = y := by
  simp only [State.compared, setComparison_isEqual, Bool.and_eq_true, Bool.not_eq_true', decide_eq_false_iff_not]
  omega

/-- One predicate for each case of the trichotomy. -/
theorem compared_exactly_one (s : State) (x y : Nat) :
    ((s.compared x y).isEqual, (s.compared x y).isGreater, (s.compared x y).isLesser) ∈
      [(true, false, false), (false, true, false), (false, false, true)] := by
  obtain h | rfl | h := Nat.lt_trichotomy x y
  · simp [State.compared, h, Nat.le_of_lt h]
  · simp [State.compared]
  · simp [State.compared, h, Nat.le_of_lt h]

/-- Settles O23: LT and GT are the two strict comparisons of the operands' values, and `Equal()` is neither. -/
theorem cmpWritesTheComparisonBits : Obligations.CmpWritesTheComparisonBits := by
  intro s t st
  exact ⟨fun x => decode_family1Word (k := .cmp) (by decide) x s t,
    st.compared (regValue st s) (regValue st t), exec_cmp st s t, compared_lt_iff st _ _,
    compared_gt_iff st _ _, (compared_isEqual_iff st _ _).trans BitVec.toNat_inj,
    compared_exactly_one st _ _, rfl, setComparison_frame st _ _⟩

end Sys2Proof.Machine
end

section
/-! PROOFS. The family of 44_logical_shift.md (R191, R192, R193, R196): AND, OR, XOR and NOT write one register
with a bitwise function of words, and nothing else. -/

namespace Sys2Proof.Machine

/-- What an instruction that answers one register write leaves: the value, the pc and the frame. -/
theorem exists_next_of_exec_eq_writeReg {i : Instr} {st : State} {t : RegField} {v : Word}
    (h : exec i st = .next (st.writeReg t v)) :
    ∃ st', exec i st = .next st' ∧ st'.readReg t = v ∧ st'.pc = st.pc ∧ Frame [t] [] st st' :=
  ⟨_, h, readReg_writeReg_same st t v, rfl, writeReg_frame st t v⟩

/-- Settles O30: the value of a word's complement is its distance from `0xFFFF`. -/
theorem notWritesTheComplement : Obligations.NotWritesTheComplement := by
  intro s t st
  obtain ⟨st', hexec, hval, hkeeps⟩ := exists_next_of_exec_eq_writeReg (exec_not st s t)
  have hvalue : (st'.readReg t).toNat = 0xFFFF - (st.readReg t).toNat := by rw [hval, BitVec.toNat_not]
  exact ⟨fun x => decode_family1Word (k := .not) (by decide) x s t, st', hexec, hvalue, hkeeps⟩

/-- Settles O25: a bit of the words' conjunction is the conjunction of their bits. -/
theorem andWritesTheConjunction : Obligations.AndWritesTheConjunction := by
  intro s t st
  obtain ⟨st', hexec, hval, hkeeps⟩ := exists_next_of_exec_eq_writeReg (exec_and st s t)
  exact ⟨fun x => decode_family1Word (k := .and) (by decide) x s t, st', hexec,
    fun i => by rw [hval, BitVec.getLsbD_and], hkeeps⟩

/-- Settles O26: a bit of the words' disjunction is the disjunction of their bits. -/
theorem orWritesTheDisjunction : Obligations.OrWritesTheDisjunction := by
  intro s t st
  obtain ⟨st', hexec, hval, hkeeps⟩ := exists_next_of_exec_eq_writeReg (exec_or st s t)
  exact ⟨fun x => decode_family1Word (k := .or) (by decide) x s t, st', hexec,
    fun i => by rw [hval, BitVec.getLsbD_or], hkeeps⟩

/-- Settles O27: a bit of the words' exclusive or is the exclusive or of their bits. -/
theorem xorWritesTheExclusiveOr : Obligations.XorWritesTheExclusiveOr := by
  intro s t st
  obtain ⟨st', hexec, hval, hkeeps⟩ := exists_next_of_exec_eq_writeReg (exec_xor st s t)
  exact ⟨fun x => decode_family1Word (k := .xor) (by decide) x s t, st', hexec,
    fun i => by rw [hval, BitVec.getLsbD_xor], hkeeps⟩

end Sys2Proof.Machine
end

section
/-! PROOFS. The family of 60_exceptions.md (R213, R227): the word that is no instruction, and the errors of the
host's operations. An error reply comes from one of five calls. Four of them fail before they write anything;
`Load` has written only cells, all below 4096, and fails at an address that is 4096 or above. -/

namespace Sys2Proof.Machine

/-! ### The word that is no instruction -/

theorem step_of_running {s : State} (h : s.status = .running) : step s = fetchThen s runWord := by
  rw [step, h]

theorem decode_of_opcode_unnamed {w : Word} (h : ∀ k, opcodeNumber k ≠ (decodeFields w).opcode) :
    decode w = .invalidOpcode (decodeFields w).opcode := by
  rw [decode_eq_dispatch, dispatch]
  split
  · next k hk => exact absurd (mnemonicOf_eq_some hk).symm (h k)
  · rfl

theorem runWord_of_invalid {w : Word} {op : Nat} (h : decode w = .invalidOpcode op) (s : State) :
    runWord w s = .next (s.setStatus (.failed (.invalidOpcode op w))) := by
  rw [runWord, h]
  exact raise_eq _

/-- Settles O32: the fetch succeeds and increments the pc, and the verdict on the word is invalid. -/
theorem invalidWordEndsTheRun : Obligations.InvalidWordEndsTheRun := by
  intro st w hrun hpc hw hop
  rw [step_of_running hrun, fetchThen_of_lt runWord hpc, ← hw,
    runWord_of_invalid (decode_of_opcode_unnamed hop)]
  rfl

/-! ### The host's single-slot accesses -/

variable {s s' : State} {e : RunError}

theorem getMemory_error {a : Nat} (h : getMemory s a = (s', .error e)) :
    4096 ≤ a ∧ s' = s ∧ e = .invalidMemoryLocation a := by
  obtain ha | ha := Nat.lt_or_ge a 4096
  · rw [getMemory, memRead_of_lt ha] at h
    cases h
  · rw [getMemory, memRead_of_ge ha] at h
    cases h
    exact ⟨ha, rfl, rfl⟩

theorem setMemory_error {a : Nat} {v : Word} (h : setMemory s a v = (s', .error e)) :
    4096 ≤ a ∧ s' = s ∧ e = .invalidMemoryLocation a := by
  obtain ha | ha := Nat.lt_or_ge a 4096
  · rw [setMemory, memWrite_of_lt v ha] at h
    cases h
  · rw [setMemory, memWrite_of_ge v ha] at h
    cases h
    exact ⟨ha, rfl, rfl⟩

theorem getRegister_error {i : Nat} (h : getRegister s i = (s', .error e)) :
    16 ≤ i ∧ s' = s ∧ e = .invalidRegister i := by
  unfold getRegister at h
  split at h
  · next hi =>
    cases h
    exact ⟨hi, rfl, rfl⟩
  · cases h

theorem setRegister_error {i : Nat} {v : Word} (h : setRegister s i v = (s', .error e)) :
    16 ≤ i ∧ s' = s ∧ e = .invalidRegister i := by
  unfold setRegister at h
  split at h
  · next hi =>
    cases h
    exact ⟨hi, rfl, rfl⟩
  · cases h

/-! ### `Load` -/

theorem hostLoad_eq_loadWords (s : State) (base : Nat) (words : List Word) :
    hostLoad s base words = loadWords s base words := rfl

theorem loadWords_cons_of_lt (s : State) {base : Nat} (v : Word) (rest : List Word) (h : base < 4096) :
    loadWords s base (v :: rest) = loadWords { s with mem := s.mem.set base v } (base + 1) rest := by
  rw [loadWords, memWrite_of_lt v h]

theorem loadWords_cons_of_ge (s : State) {base : Nat} (v : Word) (rest : List Word) (h : 4096 ≤ base) :
    loadWords s base (v :: rest) = (s, .error (.invalidMemoryLocation base)) := by
  rw [loadWords, memWrite_of_ge v h]

/-- However far it gets, `Load` changes the memory and nothing else. -/
theorem loadWords_frame {base : Nat} {words : List Word} {r : Reply} (h : loadWords s base words = (s', r)) :
    s'.status = s.status ∧ s'.regs = s.regs ∧ s'.pc = s.pc ∧ s'.flags = s.flags := by
  induction words generalizing s base with
  | nil =>
    cases h
    exact ⟨rfl, rfl, rfl, rfl⟩
  | cons v rest ih =>
    obtain hb | hb := Nat.lt_or_ge base 4096
    · rw [loadWords_cons_of_lt s v rest hb] at h
      have hrest := ih h
      exact hrest
    · rw [loadWords_cons_of_ge s v rest hb] at h
      cases h
      exact ⟨rfl, rfl, rfl, rfl⟩

theorem loadWords_get_of_ge {base : Nat} {words : List Word} {r : Reply} (h : loadWords s base words = (s', r))
    {a : Nat} (ha : 4096 ≤ a) : s'.mem.get a = s.mem.get a := by
  induction words generalizing s base with
  | nil =>
    cases h
    rfl
  | cons v rest ih =>
    obtain hb | hb := Nat.lt_or_ge base 4096
    · rw [loadWords_cons_of_lt s v rest hb] at h
      rw [ih h]
      exact get_set_other s.mem v (by omega)
    · rw [loadWords_cons_of_ge s v rest hb] at h
      cases h
      rfl

theorem loadWords_error_address {base : Nat} {words : List Word} (h : loadWords s base words = (s', .error e)) :
    ∃ a, 4096 ≤ a ∧ base ≤ a ∧ e = .invalidMemoryLocation a := by
  induction words generalizing s base with
  | nil => cases h
  | cons v rest ih =>
    obtain hb | hb := Nat.lt_or_ge base 4096
    · rw [loadWords_cons_of_lt s v rest hb] at h
      obtain ⟨a, ha, hle, he⟩ := ih h
      exact ⟨a, ha, Nat.le_of_succ_le hle, he⟩
    · rw [loadWords_cons_of_ge s v rest hb] at h
      cases h
      exact ⟨base, hb, Nat.le_refl base, rfl⟩

/-! ### Error replies -/

theorem acceptedCall_of_hostCall_next {c : HostCall} {x : State × Reply} (h : hostCall c s = .next x) :
    acceptedCall c s = .next x := by
  have hstop : s.status ≠ .running := by
    intro hrun
    rw [hostCall, hrun] at h
    cases h
  rwa [hostCall_of_not_running c hstop] at h

/-- The calls that can reply with an error, each with the operation that failed. -/
theorem acceptedCall_error_cases {c : HostCall} (h : acceptedCall c s = .next (s', .error e)) :
    (∃ a, c = .getMemory a ∧ getMemory s a = (s', .error e)) ∨
    (∃ a v, c = .setMemory a v ∧ setMemory s a v = (s', .error e)) ∨
    (∃ base words, c = .load base words ∧ hostLoad s base words = (s', .error e)) ∨
    (∃ i, c = .getRegister i ∧ getRegister s i = (s', .error e)) ∨
    (∃ i v, c = .setRegister i v ∧ setRegister s i v = (s', .error e)) := by
  cases c with
  | getMemory a => exact .inl ⟨a, rfl, Host.Outcome.next.inj h⟩
  | setMemory a v => exact .inr (.inl ⟨a, v, rfl, Host.Outcome.next.inj h⟩)
  | load base words => exact .inr (.inr (.inl ⟨base, words, rfl, Host.Outcome.next.inj h⟩))
  | getRegister i => exact .inr (.inr (.inr (.inl ⟨i, rfl, Host.Outcome.next.inj h⟩)))
  | setRegister i v => exact .inr (.inr (.inr (.inr ⟨i, v, rfl, Host.Outcome.next.inj h⟩)))
  | encode f =>
    rw [acceptedCall_encode] at h
    split at h <;> cases h
  | getOverflow | getEqual | getGreater | getLesser | programCounter | memorySize | run | decode => cases h

/-- Settles O56: each call that can reply with an error fails with the state as it was, but for the memory
that `Load` has written below the failing address. -/
theorem hostErrorsAreReturnedAndChangeNoStatus : Obligations.HostErrorsAreReturnedAndChangeNoStatus := by
  intro c st st' e hcall
  obtain ⟨a, rfl, h⟩ | ⟨a, v, rfl, h⟩ | ⟨base, words, rfl, h⟩ | ⟨i, rfl, h⟩ | ⟨i, v, rfl, h⟩ :=
    acceptedCall_error_cases (acceptedCall_of_hostCall_next hcall)
  · obtain ⟨ha, rfl, he⟩ := getMemory_error h
    exact ⟨rfl, rfl, rfl, rfl, .inl ⟨a, 0, ha, he, .inl rfl, rfl⟩⟩
  · obtain ⟨ha, rfl, he⟩ := setMemory_error h
    exact ⟨rfl, rfl, rfl, rfl, .inl ⟨a, v, ha, he, .inr rfl, rfl⟩⟩
  · rw [hostLoad_eq_loadWords] at h
    obtain ⟨hstatus, hregs, hpc, hflags⟩ := loadWords_frame h
    obtain ⟨a, ha, hle, he⟩ := loadWords_error_address h
    exact ⟨hstatus, hregs, hpc, hflags, .inr (.inl ⟨a, base, words, ha, he, rfl, hle, loadWords_get_of_ge h ha⟩)⟩
  · obtain ⟨hi, rfl, he⟩ := getRegister_error h
    exact ⟨rfl, rfl, rfl, rfl, .inr (.inr ⟨i, 0, hi, he, .inl rfl, rfl⟩)⟩
  · obtain ⟨hi, rfl, he⟩ := setRegister_error h
    exact ⟨rfl, rfl, rfl, rfl, .inr (.inr ⟨i, v, hi, he, .inr rfl, rfl⟩)⟩

end Sys2Proof.Machine
end

section
/-! PROOFS. The codec (30_encoding.md): its round trips, the opcode map and what encoding drops. A well-formed
tuple is packed as one of the two families' words, and the fields of such a word are the tuple; an instruction's
tuple is well-formed, and dispatching it gives the instruction back. -/

namespace Sys2Proof.Machine

open Config

/-! ### Decode of Encode -/

theorem encodeFields_of_le {f : Fields} (h : f.opcode ≤ 21) :
    encodeFields f = some (packWord f.opcode f.s f.t f.memloc) := if_pos h

theorem encodeFields_eq_none_iff (f : Fields) : encodeFields f = none ↔ 21 < f.opcode := by
  simp [encodeFields]

theorem decodeFields_packWord_of_lt {o : Nat} (s t : Nat) {m : Nat} (ho : o < 8) (hm : m < 4096) :
    decodeFields (packWord o s t m) = { opcode := o, s := 0, t := 0, memloc := m } := by
  rw [packWord_of_lt s t m ho, decodeFields_family0Word, BitVec.toNat_ofNat, BitVec.toNat_ofNat,
    Nat.mod_eq_of_lt (show o < 2 ^ 3 by omega), Nat.mod_eq_of_lt (show m < 2 ^ 12 by omega)]

theorem decodeFields_packWord_of_ge {o s t : Nat} (m : Nat) (ho : 8 ≤ o) (hle : o ≤ 70) (hs : s < 16)
    (ht : t < 16) : decodeFields (packWord o s t m) = { opcode := o, s := s, t := t, memloc := 0 } := by
  rw [packWord_of_ge s t m ho hle, decodeFields_family1Word, BitVec.toNat_ofNat, BitVec.toNat_ofNat,
    BitVec.toNat_ofNat, Nat.mod_eq_of_lt (show o - 7 < 2 ^ 6 by omega),
    Nat.mod_eq_of_lt (show s < 2 ^ 4 by omega), Nat.mod_eq_of_lt (show t < 2 ^ 4 by omega),
    Nat.sub_add_cancel (by omega)]

/-- Encoding a well-formed tuple loses nothing (R79). -/
theorem decodeFields_packWord {f : Fields} (ho : f.opcode ≤ 21) (hs : f.s < 16) (ht : f.t < 16)
    (hm : f.memloc < 4096) (h0 : f.opcode < 8 → f.s = 0 ∧ f.t = 0) (h1 : 8 ≤ f.opcode → f.memloc = 0) :
    decodeFields (packWord f.opcode f.s f.t f.memloc) = f := by
  obtain ⟨o, s, t, m⟩ := f
  obtain h | h := Nat.lt_or_ge o 8
  · obtain ⟨rfl, rfl⟩ : s = 0 ∧ t = 0 := h0 h
    exact decodeFields_packWord_of_lt 0 0 h hm
  · obtain rfl : m = 0 := h1 h
    exact decodeFields_packWord_of_ge 0 h (Nat.le_trans ho (by decide)) hs ht

theorem wellFormed_iff (f : Fields) : f.wellFormed = true ↔
    f.opcode ≤ 21 ∧ (f.s < 16 ∧ f.t < 16 ∧ f.memloc < 4096) ∧
      (if f.opcode < 8 then f.s = 0 ∧ f.t = 0 else f.memloc = 0) := by
  unfold Fields.wellFormed Fields.opcodeInDomain Fields.operandsInWidth Fields.uncarriedZero
  split <;> simp [and_assoc]

theorem decodeFields_packWord_of_wellFormed {f : Fields} (h : f.wellFormed = true) :
    decodeFields (packWord f.opcode f.s f.t f.memloc) = f := by
  obtain ⟨ho, ⟨hs, ht, hm⟩, h01⟩ := (wellFormed_iff f).mp h
  refine decodeFields_packWord ho hs ht hm (fun hlt => ?_) (fun hge => ?_)
  · rwa [if_pos hlt] at h01
  · rwa [if_neg (by omega)] at h01

theorem fieldsWellFormed (i : Instr) : Laws.FieldsWellFormed.Statement i := by
  cases i with
  | halt m => exact Laws.FieldsWellFormed.halt m
  | noop m => exact Laws.FieldsWellFormed.noop m
  | jmp m => exact Laws.FieldsWellFormed.jmp m
  | jeq m => exact Laws.FieldsWellFormed.jeq m
  | jgt m => exact Laws.FieldsWellFormed.jgt m
  | jlt m => exact Laws.FieldsWellFormed.jlt m
  | setreg s t => exact Laws.FieldsWellFormed.setreg s t
  | load s t => exact Laws.FieldsWellFormed.load s t
  | store s t => exact Laws.FieldsWellFormed.store s t
  | add s t => exact Laws.FieldsWellFormed.add s t
  | sub s t => exact Laws.FieldsWellFormed.sub s t
  | mul s t => exact Laws.FieldsWellFormed.mul s t
  | div s t => exact Laws.FieldsWellFormed.div s t
  | cmp s t => exact Laws.FieldsWellFormed.cmp s t
  | and s t => exact Laws.FieldsWellFormed.and s t
  | or s t => exact Laws.FieldsWellFormed.or s t
  | xor s t => exact Laws.FieldsWellFormed.xor s t
  | shl n t => exact Laws.FieldsWellFormed.shl n t
  | shr n t => exact Laws.FieldsWellFormed.shr n t
  | not s t => exact Laws.FieldsWellFormed.not s t

theorem decodeFields_encode (i : Instr) : decodeFields (encode i) = i.fields :=
  decodeFields_packWord_of_wellFormed (fieldsWellFormed i).1

/-- Settles O6: an encoding's fields are the instruction's, and those dispatch to the instruction. -/
theorem decodingAnEncodingGivesTheInstruction : Obligations.DecodingAnEncodingGivesTheInstruction := by
  intro i
  rw [decode_eq_dispatch, decodeFields_encode]
  exact (fieldsWellFormed i).2

/-! ### Encode of Decode -/

theorem encodeFields_decodeFields_of_lt {w : Word} (h : w.toNat < 0x8000) :
    encodeFields (decodeFields w) = some w := by
  have hop : w.toNat / 4096 < 8 := by omega
  have hm : BitVec.ofNat 12 (w.toNat % 4096) = BitVec.ofNat 12 w.toNat := BitVec.eq_of_toNat_eq (by simp)
  rw [decodeFields_of_lt h, encodeFields_of_le (show w.toNat / 4096 ≤ 21 by omega), packWord_of_lt _ _ _ hop, hm,
    ← eq_family0Word h]

theorem family1Word_getLsbD_8 (o : BitVec 6) (x : BitVec 1) (s t : RegField) :
    (family1Word o x s t).getLsbD 8 = x.getLsbD 0 := by
  rw [family1Word, BitVec.getLsbD_append, BitVec.getLsbD_append, BitVec.getLsbD_append]
  rfl

theorem family1Word_opfield (o : BitVec 6) (x : BitVec 1) (s t : RegField) :
    (family1Word o x s t).extractLsb' 9 6 = o := by
  have ho := o.isLt
  have hx := x.isLt
  have hs := s.isLt
  have ht := t.isLt
  apply BitVec.eq_of_toNat_eq
  rw [BitVec.extractLsb'_toNat, family1Word_toNat, Nat.shiftRight_eq_div_pow]
  omega

theorem getLsbD_zero_eq_false_iff : ∀ x : BitVec 1, x.getLsbD 0 = false ↔ x = 0 := by decide

theorem family1Word_eq_iff (o : BitVec 6) (x y : BitVec 1) (s t : RegField) :
    family1Word o x s t = family1Word o y s t ↔ x = y := by
  rw [← BitVec.toNat_inj, ← BitVec.toNat_inj, family1Word_toNat, family1Word_toNat]
  omega

/-- A family-1 word survives exactly when its bit 8 is 0 and its opcode is in the domain and in family 1. -/
theorem encodeFields_decodeFields_family1Word (o : BitVec 6) (x : BitVec 1) (s t : RegField) :
    encodeFields (decodeFields (family1Word o x s t)) = some (family1Word o x s t) ↔
      x = 0 ∧ 1 ≤ o.toNat ∧ o.toNat ≤ 14 := by
  have ho := o.isLt
  rw [decodeFields_family1Word]
  obtain hgt | hle := Nat.lt_or_ge 14 o.toNat
  · rw [(encodeFields_eq_none_iff _).mpr (show 21 < o.toNat + 7 by omega)]
    simp
    omega
  · rw [encodeFields_of_le (show o.toNat + 7 ≤ 21 by omega), Option.some_inj]
    obtain h0 | hpos := Nat.eq_zero_or_pos o.toNat
    · have hne : packWord (o.toNat + 7) s.toNat t.toNat 0 ≠ family1Word o x s t := by
        intro h
        have hval := congrArg BitVec.toNat h
        rw [packWord_of_lt _ _ _ (by omega), family0Word_toNat, family1Word_toNat] at hval
        simp at hval
        omega
      exact ⟨fun h => absurd h hne, fun h => by omega⟩
    · rw [packWord_of_ge _ _ _ (show 8 ≤ o.toNat + 7 by omega) (show o.toNat + 7 ≤ 70 by omega)]
      simp only [Nat.add_sub_cancel, BitVec.ofNat_toNat, BitVec.setWidth_eq, family1Word_eq_iff]
      exact ⟨fun h => ⟨h.symm, hpos, hle⟩, fun ⟨h, _, _⟩ => h.symm⟩

theorem encodeFields_decodeFields_of_ge {w : Word} (h : 0x8000 ≤ w.toNat) :
    encodeFields (decodeFields w) = some w ↔
      w.getLsbD 8 = false ∧ 1 ≤ (w.extractLsb' 9 6).toNat ∧ (w.extractLsb' 9 6).toNat ≤ 14 := by
  rw [eq_family1Word h, family1Word_getLsbD_8, family1Word_opfield, getLsbD_zero_eq_false_iff,
    encodeFields_decodeFields_family1Word]

theorem decode_family0Word_ne {op : BitVec 3} {k : Mnemonic} (hk : mnemonicOf op.toNat = some k)
    (hinj : ∀ m m' : Memloc, mkInstr k 0 0 m = mkInstr k 0 0 m' → m = m') {m m' : Memloc} (h : m ≠ m') :
    decode (family0Word op m) ≠ decode (family0Word op m') := by
  rw [decode_family0Word hk, decode_family0Word hk]
  exact fun e => h (hinj m m' (Verdict.instr.inj e))

/-- Settles O5: one lemma for each direction and family. -/
theorem codecRoundTripsExactlyWhereItShould : Obligations.CodecRoundTripsExactlyWhereItShould := by
  refine ⟨fun f ho hs ht hm h0 h1 => ⟨_, encodeFields_of_le ho, decodeFields_packWord ho hs ht hm h0 h1⟩,
    fun w hbit => ?_, fun w hbit => ?_, ⟨by decide, by decide⟩,
    fun m m' st => ⟨rfl, rfl, fun hne => ⟨?_, ?_⟩⟩⟩
  · rw [getLsbD_15] at hbit
    exact encodeFields_decodeFields_of_lt (by simpa using hbit)
  · rw [getLsbD_15] at hbit
    exact encodeFields_decodeFields_of_ge (by simpa using hbit)
  · exact decode_family0Word_ne (k := .halt) (by decide) (fun _ _ => Instr.halt.inj) hne
  · exact decode_family0Word_ne (k := .noop) (by decide) (fun _ _ => Instr.noop.inj) hne

/-! ### The opcode map -/

theorem mnemonicOf_eq_none_of_gt {op : Nat} (h : 21 < op) : mnemonicOf op = none := by
  cases hop : mnemonicOf op with
  | none => rfl
  | some k =>
    have hle : opcodeNumber k ≤ 21 := opcodeNumber_le k
    have := mnemonicOf_eq_some hop
    omega

/-- The numbers 0 to 5 name HALT to JLT in order (R80). -/
theorem mnemonicOf_family0 : ∀ op < 6, ∃ k, mnemonicOf op = some k ∧
    some k = ([.halt, .noop, .jmp, .jeq, .jgt, .jlt] : List Mnemonic)[op]? := by decide

/-- The numbers 8 to 21 name SETREG to NOT in order (R80). -/
theorem mnemonicOf_family1 : ∀ n < 14, ∃ k, mnemonicOf (n + 8) = some k ∧
    some k = ([.setreg, .load, .store, .add, .sub, .mul, .div, .cmp, .and, .or, .xor, .shl, .shr, .not] :
      List Mnemonic)[n]? := by decide

theorem decode_of_mnemonicOf {w : Word} {k : Mnemonic} (h : mnemonicOf (decodeFields w).opcode = some k) :
    ∃ i, decode w = .instr i ∧ i.mnemonic = k := by
  rw [decode_eq_dispatch, dispatch, h]
  exact ⟨_, rfl, mkInstr_mnemonic k _ _ _⟩

theorem decode_of_mnemonicOf_none {w : Word} (h : mnemonicOf (decodeFields w).opcode = none) :
    decode w = .invalidOpcode (decodeFields w).opcode :=
  decode_of_opcode_unnamed (mnemonicOf_eq_none h)

theorem decodeFields_opcode_of_lt {w : Word} (h : w.toNat < 0x8000) : (decodeFields w).opcode = w.toNat / 0x1000 := by
  rw [decodeFields_of_lt h]

theorem decodeFields_opcode_of_ge {w : Word} (h : 0x8000 ≤ w.toNat) :
    (decodeFields w).opcode = w.toNat / 512 % 64 + 7 := by
  rw [decodeFields_of_ge h]

/-- Settles O7: in each range the word's value gives the opcode, which names the instruction or none. -/
theorem opcodeMapByWordValue : Obligations.OpcodeMapByWordValue := by
  intro w
  have hw := w.isLt
  refine ⟨fun h => ?_, fun hge hlt => ?_, fun hge hlt => ?_, fun hge => ?_⟩
  · obtain ⟨k, hk, hname⟩ := mnemonicOf_family0 (w.toNat / 0x1000) (by omega)
    obtain ⟨i, hi, rfl⟩ := decode_of_mnemonicOf ((congrArg _ (decodeFields_opcode_of_lt (by omega))).trans hk)
    exact ⟨i, hi, hname⟩
  · have hop : (decodeFields w).opcode = if w.toNat < 0x7000 then 6 else 7 := by
      obtain h | h := Nat.lt_or_ge w.toNat 0x8000
      · rw [decodeFields_opcode_of_lt h]
        split <;> omega
      · rw [decodeFields_opcode_of_ge h]
        split <;> omega
    rw [← hop]
    refine decode_of_mnemonicOf_none ?_
    rw [hop]
    split <;> decide
  · have hop : (decodeFields w).opcode = (w.toNat - 0x8200) / 0x200 + 8 := by
      obtain h | h := Nat.lt_or_ge w.toNat 0x8000
      · omega
      · rw [decodeFields_opcode_of_ge h]
        omega
    obtain ⟨k, hk, hname⟩ := mnemonicOf_family1 ((w.toNat - 0x8200) / 0x200) (by omega)
    obtain ⟨i, hi, rfl⟩ := decode_of_mnemonicOf ((congrArg _ hop).trans hk)
    exact ⟨i, hi, hname⟩
  · have hop := decodeFields_opcode_of_ge (w := w) (by omega)
    rw [← hop]
    exact decode_of_mnemonicOf_none (mnemonicOf_eq_none_of_gt (by omega))

/-! ### What encoding drops -/

theorem extractLsb'_congr {w w' : Word} {start len : Nat}
    (h : ∀ i, start ≤ i → i < start + len → w'.getLsbD i = w.getLsbD i) :
    w'.extractLsb' start len = w.extractLsb' start len := by
  refine BitVec.eq_of_getLsbD_eq fun i hi => ?_
  rw [BitVec.getLsbD_extractLsb', BitVec.getLsbD_extractLsb', h (start + i) (by omega) (by omega)]

/-- Decode reads no bit 8 of a family-1 word. -/
theorem decodeFields_congr_of_family1 {w w' : Word} (h15 : w.getLsbD 15 = true)
    (h : ∀ i, i ≠ 8 → w'.getLsbD i = w.getLsbD i) : decodeFields w' = decodeFields w := by
  have h15' : w'.getLsbD 15 = true := (h 15 (by decide)).trans h15
  have hop : w'.extractLsb' 9 6 = w.extractLsb' 9 6 := extractLsb'_congr fun i _ _ => h i (by omega)
  have hs : w'.extractLsb' 4 4 = w.extractLsb' 4 4 := extractLsb'_congr fun i _ _ => h i (by omega)
  have ht : w'.extractLsb' 0 4 = w.extractLsb' 0 4 := extractLsb'_congr fun i _ _ => h i (by omega)
  rw [decodeFields, decodeFields, if_pos h15, if_pos h15', hop, hs, ht]

theorem encode_of_lt {i : Instr} (h : opcodeNumber i.mnemonic < 8) :
    encode i = family0Word (BitVec.ofNat 3 (opcodeNumber i.mnemonic)) (BitVec.ofNat 12 i.memloc.toNat) :=
  packWord_of_lt _ _ _ h

theorem encode_of_ge {i : Instr} (h : 8 ≤ opcodeNumber i.mnemonic) :
    encode i = family1Word (BitVec.ofNat 6 (opcodeNumber i.mnemonic - 7)) 0
      (BitVec.ofNat 4 i.regFields.1.toNat) (BitVec.ofNat 4 i.regFields.2.toNat) :=
  packWord_of_ge _ _ _ h (Nat.le_trans (opcodeNumber_le i.mnemonic) (by decide))

theorem family0Word_getLsbD_15 (op : BitVec 3) (m : Memloc) : (family0Word op m).getLsbD 15 = false := by
  rw [family0Word, BitVec.getLsbD_append, BitVec.getLsbD_append]
  rfl

/-- Settles O8: Decode's fields leave bit 8 out, and a family-1 encoding has 0 there. -/
theorem bitEightIsIgnoredAndWrittenZero : Obligations.BitEightIsIgnoredAndWrittenZero := by
  refine ⟨fun w w' h15 h => ?_, fun i h15 => ?_⟩
  · rw [decode_eq_dispatch, decode_eq_dispatch, decodeFields_congr_of_family1 h15 h]
  · obtain h | h := Nat.lt_or_ge (opcodeNumber i.mnemonic) 8
    · rw [encode_of_lt h, family0Word_getLsbD_15] at h15
      cases h15
    · rw [encode_of_ge h, family1Word_getLsbD_8]
      rfl

theorem packWord_mod (o s t m : Nat) : packWord o (s % 16) (t % 16) (m % 4096) = packWord o s t m := by
  have hmask (n k : Nat) : n % 2 ^ k &&& (2 ^ k - 1) = n &&& (2 ^ k - 1) := by
    rw [Nat.and_two_pow_sub_one_eq_mod, Nat.and_two_pow_sub_one_eq_mod, Nat.mod_mod]
  have h4 (n : Nat) : n % 16 &&& 0xF = n &&& 0xF := hmask n 4
  have h12 : m % 4096 &&& 0xFFF = m &&& 0xFFF := hmask m 12
  rw [packWord, packWord, h4, h4, h12]

/-- Settles O4: the domain is Encode's guard, and its masks are remainders. -/
theorem encodeMasksOperandsAndRefusesOtherOpcodes : Obligations.EncodeMasksOperandsAndRefusesOtherOpcodes := by
  refine ⟨encodeFields_eq_none_iff, fun o s t m => ?_⟩
  simp only [encodeFields, packWord_mod]

/-- Settles O1: twelve closed words, each decoded by evaluation. -/
theorem sampleWordsDecodeByTheOpcodeTable : Obligations.SampleWordsDecodeByTheOpcodeTable := by
  unfold Obligations.SampleWordsDecodeByTheOpcodeTable
  decide

end Sys2Proof.Machine
end

section
/-! PROOFS. What a step can do, said once, and the statements that follow from it case by case: totality, errors,
pc, flags, memory and the invariant. `Effect` lists what each instruction can make of a state, `exec_effect` ties
it to `exec`, and `step_cases` inverts a step. -/

namespace Sys2Proof.Machine

/-! ### What an instruction can do -/

/-- The state after a jump with this condition. -/
def State.jumpedIf (s : State) (c : Bool) (m : Memloc) : State := if c then s.setPc (jumpTarget m) else s

theorem jumpIf_eq (c : Bool) (m : Memloc) (s : State) : jumpIf c m s = .next (s.jumpedIf c m) := by
  cases c <;> rfl

/-- The state after a STORE of `v` that completes. -/
def State.stored (s : State) (v : Word) : State :=
  { s.advancePc with mem := s.mem.set (operandAddress (s.mem.get s.pc.toNat)) v }

/-- The states an instruction can leave: one constructor for each that completes, one for each way to fail. -/
inductive Effect (s : State) : Instr → State → Prop
  | halt (m : Memloc) : Effect s (.halt m) (s.setStatus .halted)
  | noop (m : Memloc) : Effect s (.noop m) s
  | jmp (m : Memloc) : Effect s (.jmp m) (s.jumpedIf true m)
  | jeq (m : Memloc) : Effect s (.jeq m) (s.jumpedIf s.isEqual m)
  | jgt (m : Memloc) : Effect s (.jgt m) (s.jumpedIf s.isGreater m)
  | jlt (m : Memloc) : Effect s (.jlt m) (s.jumpedIf s.isLesser m)
  | setreg (a t : RegField) (hpc : s.pc.toNat < 4096) :
      Effect s (.setreg a t) (s.advancePc.writeReg t (s.mem.get s.pc.toNat))
  | setregNoOperand (a t : RegField) (hpc : 4096 ≤ s.pc.toNat) :
      Effect s (.setreg a t) (badAddress s s.pc.toNat)
  | load (a t : RegField) (hpc : s.pc.toNat < 4096) (haddr : operandAddress (s.mem.get s.pc.toNat) < 4096) :
      Effect s (.load a t) (s.advancePc.writeReg t (s.mem.get (operandAddress (s.mem.get s.pc.toNat))))
  | loadBadAddress (a t : RegField) (hpc : s.pc.toNat < 4096) (haddr : 4096 ≤ operandAddress (s.mem.get s.pc.toNat)) :
      Effect s (.load a t) (badAddress s.advancePc (operandAddress (s.mem.get s.pc.toNat)))
  | loadNoOperand (a t : RegField) (hpc : 4096 ≤ s.pc.toNat) : Effect s (.load a t) (badAddress s s.pc.toNat)
  | store (a t : RegField) (hpc : s.pc.toNat < 4096) (haddr : operandAddress (s.mem.get s.pc.toNat) < 4096) :
      Effect s (.store a t) (s.stored (s.readReg a))
  | storeBadAddress (a t : RegField) (hpc : s.pc.toNat < 4096)
      (haddr : 4096 ≤ operandAddress (s.mem.get s.pc.toNat)) :
      Effect s (.store a t) (badAddress s.advancePc (operandAddress (s.mem.get s.pc.toNat)))
  | storeNoOperand (a t : RegField) (hpc : 4096 ≤ s.pc.toNat) : Effect s (.store a t) (badAddress s s.pc.toNat)
  | add (a t : RegField) : Effect s (.add a t) (arithFinish t ((regValue s a : Int) + (regValue s t : Int)) s)
  | sub (a t : RegField) : Effect s (.sub a t) (arithFinish t ((regValue s a : Int) - (regValue s t : Int)) s)
  | mul (a t : RegField) : Effect s (.mul a t) (arithFinish t ((regValue s a : Int) * (regValue s t : Int)) s)
  | div (a t : RegField) (hdiv : regValue s t ≠ 0) :
      Effect s (.div a t) (arithFinish t ((regValue s a / regValue s t : Nat) : Int) s)
  | divByZero (a t : RegField) (hdiv : regValue s t = 0) :
      Effect s (.div a t) (s.setStatus (.failed .divisionByZero))
  | cmp (a t : RegField) : Effect s (.cmp a t) (s.compared (regValue s a) (regValue s t))
  | and (a t : RegField) : Effect s (.and a t) (s.writeReg t (s.readReg a &&& s.readReg t))
  | or (a t : RegField) : Effect s (.or a t) (s.writeReg t (s.readReg a ||| s.readReg t))
  | xor (a t : RegField) : Effect s (.xor a t) (s.writeReg t (s.readReg a ^^^ s.readReg t))
  | shl (n t : RegField) : Effect s (.shl n t) (s.writeReg t (s.readReg t <<< shiftCount n))
  | shr (n t : RegField) : Effect s (.shr n t) (s.writeReg t (s.readReg t >>> shiftCount n))
  | not (a t : RegField) : Effect s (.not a t) (s.writeReg t (~~~(s.readReg t)))

/-- Every instruction answers a next state, by one of its effects. -/
theorem exec_effect (i : Instr) (s : State) : ∃ s', exec i s = .next s' ∧ Effect s i s' := by
  cases i with
  | halt m => exact ⟨_, exec_halt s m, .halt m⟩
  | noop m => exact ⟨_, exec_noop s m, .noop m⟩
  | jmp m => exact ⟨_, jumpIf_eq true m s, .jmp m⟩
  | jeq m => exact ⟨_, jumpIf_eq _ m s, .jeq m⟩
  | jgt m => exact ⟨_, jumpIf_eq _ m s, .jgt m⟩
  | jlt m => exact ⟨_, jumpIf_eq _ m s, .jlt m⟩
  | setreg a t =>
    obtain ⟨hpc, e⟩ | ⟨hpc, e⟩ := exec_setreg_cases s a t
    · exact ⟨_, e, .setreg a t hpc⟩
    · exact ⟨_, e, .setregNoOperand a t hpc⟩
  | load a t =>
    obtain ⟨hpc, haddr, e⟩ | ⟨hpc, haddr, e⟩ | ⟨hpc, e⟩ := exec_load_cases s a t
    · exact ⟨_, e, .load a t hpc haddr⟩
    · exact ⟨_, e, .loadBadAddress a t hpc haddr⟩
    · exact ⟨_, e, .loadNoOperand a t hpc⟩
  | store a t =>
    obtain ⟨hpc, haddr, e⟩ | ⟨hpc, haddr, e⟩ | ⟨hpc, e⟩ := exec_store_cases s a t
    · exact ⟨_, e, .store a t hpc haddr⟩
    · exact ⟨_, e, .storeBadAddress a t hpc haddr⟩
    · exact ⟨_, e, .storeNoOperand a t hpc⟩
  | add a t => exact ⟨_, exec_add s a t, .add a t⟩
  | sub a t => exact ⟨_, exec_sub s a t, .sub a t⟩
  | mul a t => exact ⟨_, exec_mul s a t, .mul a t⟩
  | div a t =>
    obtain ⟨hdiv, e⟩ | ⟨hdiv, e⟩ := exec_div_cases s a t
    · exact ⟨_, e, .div a t hdiv⟩
    · exact ⟨_, e, .divByZero a t hdiv⟩
  | cmp a t => exact ⟨_, exec_cmp s a t, .cmp a t⟩
  | and a t => exact ⟨_, exec_and s a t, .and a t⟩
  | or a t => exact ⟨_, exec_or s a t, .or a t⟩
  | xor a t => exact ⟨_, exec_xor s a t, .xor a t⟩
  | shl n t => exact ⟨_, exec_shl s t n, .shl n t⟩
  | shr n t => exact ⟨_, exec_shr s t n, .shr n t⟩
  | not a t => exact ⟨_, exec_not s a t, .not a t⟩

theorem effect_of_exec {i : Instr} {s s' : State} (h : exec i s = .next s') : Effect s i s' := by
  obtain ⟨_, e, heff⟩ := exec_effect i s
  cases h.symm.trans e
  exact heff

/-! ### What a step can do -/

theorem runWord_of_instr {w : Word} {i : Instr} (h : decode w = .instr i) (s : State) : runWord w s = exec i s := by
  rw [runWord, h]

theorem step_of_instr {s : State} {i : Instr} (hrun : s.status = .running) (hpc : s.pc.toNat < 4096)
    (hi : decode (s.mem.get s.pc.toNat) = .instr i) : step s = exec i s.advancePc := by
  rw [step_of_running hrun, fetchThen_of_lt runWord hpc, runWord_of_instr hi]

theorem step_of_invalid {s : State} {op : Nat} (hrun : s.status = .running) (hpc : s.pc.toNat < 4096)
    (hop : decode (s.mem.get s.pc.toNat) = .invalidOpcode op) :
    step s = .next (s.advancePc.setStatus (.failed (.invalidOpcode op (s.mem.get s.pc.toNat)))) := by
  rw [step_of_running hrun, fetchThen_of_lt runWord hpc, runWord_of_invalid hop]

theorem step_of_pc_ge {s : State} (hrun : s.status = .running) (hpc : 4096 ≤ s.pc.toNat) :
    step s = .next (badAddress s s.pc.toNat) := by
  rw [step_of_running hrun]
  exact fetchThen_of_ge runWord hpc

/-- The states a step can leave: a failed fetch's, an invalid word's, or an instruction's. -/
inductive StepEffect (s : State) : State → Prop
  | noFetch (hpc : 4096 ≤ s.pc.toNat) : StepEffect s (badAddress s s.pc.toNat)
  | invalid (op : Nat) (hpc : s.pc.toNat < 4096) (hop : decode (s.mem.get s.pc.toNat) = .invalidOpcode op) :
      StepEffect s (s.advancePc.setStatus (.failed (.invalidOpcode op (s.mem.get s.pc.toNat))))
  | instr (i : Instr) (s' : State) (hpc : s.pc.toNat < 4096) (hi : decode (s.mem.get s.pc.toNat) = .instr i)
      (heff : Effect s.advancePc i s') : StepEffect s s'

theorem step_effect {s : State} (hrun : s.status = .running) : ∃ s', step s = .next s' ∧ StepEffect s s' := by
  obtain hpc | hpc := Nat.lt_or_ge s.pc.toNat 4096
  · cases hw : decode (s.mem.get s.pc.toNat) with
    | instr i =>
      obtain ⟨s', e, heff⟩ := exec_effect i s.advancePc
      exact ⟨s', (step_of_instr hrun hpc hw).trans e, .instr i s' hpc hw heff⟩
    | invalidOpcode op => exact ⟨_, step_of_invalid hrun hpc hw, .invalid op hpc hw⟩
  · exact ⟨_, step_of_pc_ge hrun hpc, .noFetch hpc⟩

theorem stepEffect_of_step {s s' : State} (h : step s = .next s') : StepEffect s s' := by
  obtain ⟨_, e, heff⟩ := step_effect (running_of_step h)
  cases h.symm.trans e
  exact heff

/-- Settles O31. -/
theorem stepRunsTheDecodedInstruction : Obligations.StepRunsTheDecodedInstruction := fun _ _ hrun hpc hi =>
  step_of_instr hrun hpc hi

/-- Settles O33. -/
theorem fetchPastTheEndOfMemoryEndsTheRun : Obligations.FetchPastTheEndOfMemoryEndsTheRun := fun _ hrun hpc =>
  step_of_pc_ge hrun hpc

/-- Settles O34: one case for each status but Running. -/
theorem noStepOutsideARun : Obligations.NoStepOutsideARun := by
  intro st hstop
  unfold step
  split
  · next hrun => exact absurd hrun hstop
  · rfl
  · rfl
  · rfl

/-- Settles O35: a step in a run has one of the step's effects. -/
theorem runningMachineAlwaysSteps : Obligations.RunningMachineAlwaysSteps := by
  intro st hrun
  obtain ⟨st', hstep, -⟩ := step_effect hrun
  exact ⟨st', hstep⟩

/-! ### Status and errors -/

section Shared

variable (s : State) (a : Nat) (c : Bool) (m : Memloc) (v : Word) (x y : Nat)

@[simp] theorem badAddress_status : (badAddress s a).status = .failed (.invalidMemoryLocation a) := rfl
@[simp] theorem jumpedIf_status : (s.jumpedIf c m).status = s.status := by cases c <;> rfl
@[simp] theorem jumpedIf_flags : (s.jumpedIf c m).flags = s.flags := by cases c <;> rfl
@[simp] theorem jumpedIf_mem : (s.jumpedIf c m).mem = s.mem := by cases c <;> rfl
theorem jumpedIf_pc : (s.jumpedIf c m).pc = if c then jumpTarget m else s.pc := by cases c <;> rfl
@[simp] theorem stored_status : (s.stored v).status = s.status := rfl
@[simp] theorem compared_status : (s.compared x y).status = s.status := rfl

end Shared

/-- The ways an instruction can fail: a missing operand word, a bad data address, a divisor of 0. -/
inductive FailingEffect (s : State) : Instr → RunError → State → Prop
  | noOperand (i : Instr) (hi : i.hasInlineOperand = true) (hpc : 4096 ≤ s.pc.toNat) :
      FailingEffect s i (.invalidMemoryLocation s.pc.toNat) s
  | dataAddress (i : Instr) (hi : i.hasInlineOperand = true) (hpc : s.pc.toNat < 4096)
      (haddr : 4096 ≤ operandAddress (s.mem.get s.pc.toNat)) :
      FailingEffect s i (.invalidMemoryLocation (operandAddress (s.mem.get s.pc.toNat))) s.advancePc
  | divByZero (a t : RegField) : FailingEffect s (.div a t) .divisionByZero s

/-- An effect keeps the status, is HALT's, or fails. -/
theorem Effect.status_cases {s s' : State} {i : Instr} (h : Effect s i s') :
    s'.status = s.status ∨ (s'.status = .halted ∧ ∃ m, i = .halt m) ∨
      ∃ e u, FailingEffect s i e u ∧ s' = u.setStatus (.failed e) := by
  cases h with
  | halt m => exact .inr (.inl ⟨rfl, m, rfl⟩)
  | setregNoOperand a t hpc | loadNoOperand a t hpc | storeNoOperand a t hpc =>
    exact .inr (.inr ⟨_, _, .noOperand _ rfl hpc, rfl⟩)
  | loadBadAddress a t hpc haddr | storeBadAddress a t hpc haddr =>
    exact .inr (.inr ⟨_, _, .dataAddress _ rfl hpc haddr, rfl⟩)
  | divByZero a t hdiv => exact .inr (.inr ⟨_, _, .divByZero a t, rfl⟩)
  | jmp m | jeq m | jgt m | jlt m => exact .inl (jumpedIf_status s _ m)
  | add a t | sub a t | mul a t | div a t => exact .inl (arithFinish_status s t _)
  | noop | setreg | load | store | cmp | and | or | xor | shl | shr | not => exact .inl rfl

theorem FailingEffect.ne_invalidRegister {s u : State} {i : Instr} {e : RunError} (h : FailingEffect s i e u)
    (index : Nat) : e ≠ .invalidRegister index := by
  cases h <;> nofun

/-- From a run, HALT and no other instruction leaves Halted. -/
theorem Effect.halted_iff {s s' : State} {i : Instr} (hrun : s.status = .running) (h : Effect s i s') :
    s'.status = .halted ↔ ∃ m, i = .halt m := by
  refine ⟨fun hhalted => ?_, ?_⟩
  · obtain hkept | ⟨-, hi⟩ | ⟨e, u, -, rfl⟩ := h.status_cases
    · rw [hkept, hrun] at hhalted
      cases hhalted
    · exact hi
    · cases hhalted
  · rintro ⟨m, rfl⟩
    cases h
    rfl

/-- Settles O36: a failed fetch and an invalid word end the run with their errors; an instruction ends it at
HALT (`Effect.halted_iff`) or with an error of `FailingEffect`. -/
theorem runEndsOnlyAtHaltOrError : Obligations.RunEndsOnlyAtHaltOrError := by
  intro st st' hrun hstep
  cases stepEffect_of_step hstep with
  | noFetch hpc =>
    refine ⟨⟨nofun, fun ⟨hlt, _⟩ => absurd hlt (Nat.not_lt_of_le hpc)⟩, .inr (.inr ⟨_, rfl, nofun⟩)⟩
  | invalid op hpc hop =>
    refine ⟨⟨nofun, fun ⟨_, m, hm⟩ => ?_⟩, .inr (.inr ⟨_, rfl, nofun⟩)⟩
    cases hop.symm.trans hm
  | instr i _ hpc hi heff =>
    refine ⟨(heff.halted_iff (s := st.advancePc) hrun).trans (by simp [hpc, hi]), ?_⟩
    obtain hkept | ⟨hhalted, -⟩ | ⟨e, u, hfail, rfl⟩ := heff.status_cases
    · exact .inl (hkept.trans hrun)
    · exact .inr (.inl hhalted)
    · exact .inr (.inr ⟨e, rfl, hfail.ne_invalidRegister⟩)

/-- Settles O37: the errors of each effect of the instruction. -/
theorem errorsOfEachInstruction : Obligations.ErrorsOfEachInstruction := by
  intro i st st' e hrun hexec
  cases effect_of_exec hexec with
  | halt | noop | jmp | jeq | jgt | jlt | add | sub | mul | cmp | and | or | xor | shl | shr | not =>
    simp [hrun]
  | setreg a t hpc => simp [hrun, Nat.not_le_of_lt hpc]
  | load a t hpc haddr | store a t hpc haddr =>
    simp [hrun, Nat.not_le_of_lt hpc, Nat.not_le_of_lt haddr]
  | setregNoOperand a t hpc => simp [hpc, eq_comm]
  | loadBadAddress a t hpc haddr | storeBadAddress a t hpc haddr =>
    simp [hpc, haddr, Nat.not_le_of_lt hpc, eq_comm]
  | loadNoOperand a t hpc | storeNoOperand a t hpc => simp [hpc, Nat.not_lt_of_le hpc, eq_comm]
  | div a t hdiv =>
    have hne : st.readReg t ≠ 0 := fun h => hdiv (congrArg BitVec.toNat h)
    rw [arithFinish_status, hrun]
    exact ⟨nofun, fun ⟨h, _⟩ => absurd h hne⟩
  | divByZero a t hdiv =>
    have heq : st.readReg t = 0 := BitVec.eq_of_toNat_eq hdiv
    simp [heq, eq_comm]

/-- Settles O38: the pc of each way to fail is that of the state it fails in. -/
theorem failedStepLeavesTheStateAsItWas : Obligations.FailedStepLeavesTheStateAsItWas := by
  intro st st' e hrun hle hstep hfailed
  cases stepEffect_of_step hstep with
  | noFetch hpc =>
    have hpc' : st.pc.toNat = 4096 := by omega
    exact ⟨rfl, rfl, rfl, hpc'.trans (if_pos hpc').symm⟩
  | invalid op hpc hop =>
    refine ⟨rfl, rfl, rfl, ?_⟩
    rw [if_neg (by omega), hop]
    exact toNat_nextPc st hpc
  | instr i _ hpc hi heff =>
    have hnext := toNat_nextPc st hpc
    rw [if_neg (by omega), hi]
    obtain hkept | ⟨hhalted, -⟩ | ⟨e', u, hfail, rfl⟩ := heff.status_cases
    · cases hfailed.symm.trans (hkept.trans hrun)
    · cases hfailed.symm.trans hhalted
    cases hfail with
    | noOperand _ hinline hpc1 =>
      have hend : st.pc.toNat = 4095 := by rw [advancePc_pc] at hpc1; omega
      refine ⟨rfl, rfl, rfl, ?_⟩
      show (st.pc + 1).toNat = if i.hasInlineOperand = true then _ else _
      rw [if_pos hinline, if_pos hend]
      omega
    | dataAddress _ hinline hpc1 =>
      have hnext1 := toNat_nextPc st.advancePc hpc1
      rw [advancePc_pc] at hpc1 hnext1
      refine ⟨rfl, rfl, rfl, ?_⟩
      show (st.pc + 1 + 1).toNat = if i.hasInlineOperand = true then _ else _
      rw [if_pos hinline, if_neg (by omega)]
      omega
    | divByZero a t => exact ⟨rfl, rfl, rfl, hnext⟩

/-! ### The pc -/

/-- The pc after a jump in a step, by what its condition says. -/
theorem toNat_pc_jumpedIf {s : State} {c : Bool} {p : Prop} [Decidable p] (hp : c = true ↔ p) (m : Memloc)
    (hpc : s.pc.toNat < 4096) :
    (s.advancePc.jumpedIf c m).pc.toNat = if p then m.toNat else s.pc.toNat + 1 := by
  simp only [jumpedIf_pc, hp]
  split
  · exact jumpTarget_toNat m
  · exact toNat_nextPc s hpc

/-- Settles O39: the pc of each effect that does not fail. -/
theorem pcAfterEachInstruction : Obligations.PcAfterEachInstruction := by
  intro st st' i hrun hpc hi hstep hok
  have hnext := toNat_nextPc st hpc
  cases effect_of_exec ((step_of_instr hrun hpc hi).symm.trans hstep) with
  | setregNoOperand | loadBadAddress | loadNoOperand | storeBadAddress | storeNoOperand | divByZero =>
    exact absurd rfl (hok _)
  | jmp m => exact jumpTarget_toNat m
  | jeq m => exact toNat_pc_jumpedIf (isEqual_iff _) m hpc
  | jgt m => exact toNat_pc_jumpedIf (isGreater_iff _) m hpc
  | jlt m => exact toNat_pc_jumpedIf (isLesser_iff _) m hpc
  | setreg a t hpc1 | load a t hpc1 | store a t hpc1 =>
    exact (toNat_nextPc st.advancePc hpc1).trans (congrArg (· + 1) hnext)
  | add | sub | mul | div => rwa [arithFinish_pc]
  | halt | noop | cmp | and | or | xor | shl | shr | not => exact hnext

/-! ### Flags and memory -/

/-- Who writes which flag bit. -/
theorem Effect.flags_cases {s s' : State} {i : Instr} (h : Effect s i s') :
    s'.flags = s.flags ∨
    (i.mnemonic ∈ ([.add, .sub, .mul, .div] : List Config.Mnemonic) ∧
      ∀ b, b ∉ [0] → s'.flags.getLsbD b = s.flags.getLsbD b) ∨
    (i.mnemonic = .cmp ∧ ∀ b, b ∉ [1, 2] → s'.flags.getLsbD b = s.flags.getLsbD b) := by
  cases h with
  | add a t | sub a t | mul a t | div a t =>
    exact .inr (.inl ⟨by simp [Instr.mnemonic], (arithFinish_frame s t _).flag_eq⟩)
  | cmp a t => exact .inr (.inr ⟨rfl, (setComparison_frame s _ _).flag_eq⟩)
  | jmp m | jeq m | jgt m | jlt m => exact .inl (jumpedIf_flags s _ m)
  | halt | noop | setreg | setregNoOperand | load | loadBadAddress | loadNoOperand | store | storeBadAddress
  | storeNoOperand | divByZero | and | or | xor | shl | shr | not => exact .inl rfl

/-- Settles O40: the flags are kept, or written by arithmetic at bit 0, or by CMP at bits 1 and 2. -/
theorem flagsAreWrittenOnlyByTheirWriters : Obligations.FlagsAreWrittenOnlyByTheirWriters := by
  intro i st st' hexec
  obtain hkept | ⟨hi, hbits⟩ | ⟨hi, hbits⟩ := (effect_of_exec hexec).flags_cases
  · simp [hkept]
  · exact ⟨fun hn => absurd hi hn, fun _ => ⟨hbits 1 (by decide), hbits 2 (by decide)⟩,
      fun b hb => hbits b (by simp; omega)⟩
  · exact ⟨fun _ => hbits 0 (by decide), fun hn => absurd hi hn, fun b hb => hbits b (by simp; omega)⟩

/-- Only STORE writes the memory. -/
theorem Effect.mem_cases {s s' : State} {i : Instr} (h : Effect s i s') :
    s'.mem = s.mem ∨
    (i.mnemonic = .store ∧ operandAddress (s.mem.get s.pc.toNat) < 4096 ∧
      ∃ v, s'.mem = s.mem.set (operandAddress (s.mem.get s.pc.toNat)) v) := by
  cases h with
  | store a t hpc haddr => exact .inr ⟨rfl, haddr, _, rfl⟩
  | jmp m | jeq m | jgt m | jlt m => exact .inl (jumpedIf_mem s _ m)
  | add a t | sub a t | mul a t | div a t => exact .inl (arithFinish_mem s t _)
  | halt | noop | setreg | setregNoOperand | load | loadBadAddress | loadNoOperand | storeBadAddress
  | storeNoOperand | divByZero | cmp | and | or | xor | shl | shr | not => exact .inl rfl

/-- Settles O41: the memory is kept, or STORE writes the one cell. -/
theorem onlyStoreChangesMemory : Obligations.OnlyStoreChangesMemory := by
  intro i st st' hexec
  obtain hkept | ⟨hi, -, v, hset⟩ := (effect_of_exec hexec).mem_cases
  · exact ⟨fun _ a => by rw [hkept], fun _ a _ => by rw [hkept]⟩
  · exact ⟨fun hn => absurd hi hn, fun _ a hne => by rw [hset, get_set_other st.mem v hne]⟩

/-! ### The invariant -/

/-- An address that a 16-bit word holds, at 4096 or above, is a legal error payload. -/
theorem runErrorLegal_invalidMemoryLocation {w : Word} (h : 4096 ≤ w.toNat) :
    RunErrorLegal (.invalidMemoryLocation w.toNat) :=
  ⟨h, Nat.le_of_lt_succ w.isLt⟩

theorem FailingEffect.legal {s u : State} {i : Instr} {e : RunError} (h : FailingEffect s i e u) :
    RunErrorLegal e := by
  cases h with
  | noOperand _ _ hpc => exact runErrorLegal_invalidMemoryLocation hpc
  | dataAddress _ _ _ haddr => exact runErrorLegal_invalidMemoryLocation haddr
  | divByZero => trivial

theorem toNat_advancePc_le {s : State} (hpc : s.pc.toNat < 4096) : s.advancePc.pc.toNat ≤ 4096 := by
  rw [advancePc_pc, toNat_nextPc s hpc]
  exact hpc

theorem jumpedIf_pc_le {s : State} (c : Bool) (m : Memloc) (h : s.pc.toNat ≤ 4096) :
    (s.jumpedIf c m).pc.toNat ≤ 4096 := by
  rw [jumpedIf_pc]
  split
  · rw [jumpTarget_toNat]
    exact Nat.le_of_lt m.isLt
  · exact h

theorem Effect.pc_le {s s' : State} {i : Instr} (h : Effect s i s') (hpc : s.pc.toNat ≤ 4096) :
    s'.pc.toNat ≤ 4096 := by
  cases h with
  | jmp m | jeq m | jgt m | jlt m => exact jumpedIf_pc_le _ m hpc
  | setreg _ _ hlt | load _ _ hlt | loadBadAddress _ _ hlt | store _ _ hlt | storeBadAddress _ _ hlt =>
    exact toNat_advancePc_le hlt
  | add | sub | mul | div => rwa [arithFinish_pc]
  | halt | noop | setregNoOperand | loadNoOperand | storeNoOperand | divByZero | cmp | and | or | xor | shl
  | shr | not => exact hpc

theorem compared_flags_legal {s : State} (x y : Nat) (h : FlagsLegal s.flags) : FlagsLegal (s.compared x y).flags :=
  setComparison_flags_legal s (by simp; omega) h

theorem Effect.flags_legal {s s' : State} {i : Instr} (h : Effect s i s') (hf : FlagsLegal s.flags) :
    FlagsLegal s'.flags := by
  cases h with
  | add a t | sub a t | mul a t | div a t => exact arithFinish_flags_legal s t _ hf
  | cmp a t => exact compared_flags_legal _ _ hf
  | jmp m | jeq m | jgt m | jlt m => rwa [jumpedIf_flags]
  | halt | noop | setreg | setregNoOperand | load | loadBadAddress | loadNoOperand | store | storeBadAddress
  | storeNoOperand | divByZero | and | or | xor | shl | shr | not => exact hf

theorem Effect.mem_wf {s s' : State} {i : Instr} (h : Effect s i s') (hwf : s.mem.wf) : s'.mem.wf := by
  obtain hkept | ⟨-, haddr, v, hset⟩ := h.mem_cases
  · rwa [hkept]
  · rw [hset]
    exact set_wf v haddr hwf

theorem Effect.status_legal {s s' : State} {i : Instr} (h : Effect s i s') (hs : StatusLegal s.status) :
    StatusLegal s'.status := by
  obtain hkept | ⟨hhalted, -⟩ | ⟨e, u, hfail, rfl⟩ := h.status_cases
  · rwa [hkept]
  · rw [hhalted]
    trivial
  · exact hfail.legal

theorem Effect.keeps_inv {s s' : State} {i : Instr} (h : Effect s i s') (hinv : Inv s) : Inv s' where
  pc_le := h.pc_le hinv.pc_le
  flags_legal := h.flags_legal hinv.flags_legal
  mem_wf := h.mem_wf hinv.mem_wf
  status_legal := h.status_legal hinv.status_legal

theorem Inv.advancePc {s : State} (h : Inv s) (hpc : s.pc.toNat < 4096) : Inv s.advancePc :=
  { h with pc_le := toNat_advancePc_le hpc }

theorem Inv.setStatus {s : State} (h : Inv s) {st : Status} (hst : StatusLegal st) : Inv (s.setStatus st) :=
  { h with status_legal := hst }

/-- Settles O46: the invariant field by field for the instructions, and the two errors raised before one. -/
theorem everyStepKeepsTheInvariant : Obligations.EveryStepKeepsTheInvariant := by
  intro st st' hinv hstep
  cases stepEffect_of_step hstep with
  | noFetch hpc => exact hinv.setStatus (runErrorLegal_invalidMemoryLocation hpc)
  | invalid op hpc hop => exact (hinv.advancePc hpc).setStatus hop
  | instr i _ hpc _ heff => exact heff.keeps_inv (hinv.advancePc hpc)

end Sys2Proof.Machine
end

section
/-! PROOFS. No instruction reads the overflow bit (10_state.md section 4): each state update takes states that
differ in it at most to such states, each shared operation passes the relation on, and so does each instruction. -/

namespace Sys2Proof.Machine

namespace SameButOverflow

variable {a b : State}

/-! ### The relation, bit by bit -/

theorem flag_eq (h : SameButOverflow a b) {i : Nat} (hi : i ≠ 0) : b.flags.getLsbD i = a.flags.getLsbD i := by
  obtain rfl | rfl | hge : i = 1 ∨ i = 2 ∨ 3 ≤ i := by omega
  · exact h.lt_eq
  · exact h.gt_eq
  · exact h.high_eq i hge

theorem of_flag_eq (hregs : b.regs = a.regs) (hpc : b.pc = a.pc) (hmem : b.mem = a.mem)
    (hstatus : b.status = a.status) (hflags : ∀ i, i ≠ 0 → b.flags.getLsbD i = a.flags.getLsbD i) :
    SameButOverflow a b :=
  ⟨hregs, hpc, hmem, hstatus, hflags 1 (by decide), hflags 2 (by decide), fun i hi => hflags i (by omega)⟩

theorem readReg_eq (h : SameButOverflow a b) (r : RegField) : b.readReg r = a.readReg r := by
  simp only [State.readReg, h.regs_eq]

theorem regValue_eq (h : SameButOverflow a b) (r : RegField) : regValue b r = regValue a r :=
  congrArg BitVec.toNat (h.readReg_eq r)

theorem isEqual_eq (h : SameButOverflow a b) : b.isEqual = a.isEqual := by
  rw [State.isEqual, State.isEqual, h.gt_eq, h.lt_eq]

/-! ### State updates -/

theorem setStatus (h : SameButOverflow a b) (v : Status) : SameButOverflow (a.setStatus v) (b.setStatus v) :=
  { h with status_eq := rfl }

theorem setPc (h : SameButOverflow a b) (v : Word) : SameButOverflow (a.setPc v) (b.setPc v) :=
  { h with pc_eq := rfl }

theorem advancePc (h : SameButOverflow a b) : SameButOverflow a.advancePc b.advancePc :=
  { h with pc_eq := congrArg nextPc h.pc_eq }

theorem setMem (h : SameButOverflow a b) (m : Memory) : SameButOverflow { a with mem := m } { b with mem := m } :=
  { h with mem_eq := rfl }

theorem writeReg (h : SameButOverflow a b) (t : RegField) (v : Word) :
    SameButOverflow (a.writeReg t v) (b.writeReg t v) :=
  { h with regs_eq := by rw [State.writeReg, State.writeReg, h.regs_eq] }

theorem arithFinish (h : SameButOverflow a b) (t : RegField) (wide : Int) :
    SameButOverflow (arithFinish t wide a) (arithFinish t wide b) := by
  refine of_flag_eq (regs_ext fun r => ?_) ?_ ?_ ?_ fun i hi => ?_
  · rw [arithFinish_readReg, arithFinish_readReg, h.readReg_eq]
  · rw [arithFinish_pc, arithFinish_pc, h.pc_eq]
  · rw [arithFinish_mem, arithFinish_mem, h.mem_eq]
  · rw [arithFinish_status, arithFinish_status, h.status_eq]
  · rw [arithFinish_getLsbD, arithFinish_getLsbD, h.flag_eq hi]

theorem setComparison (h : SameButOverflow a b) (gt lt : Bool) :
    SameButOverflow (a.setComparison gt lt) (b.setComparison gt lt) :=
  of_flag_eq h.regs_eq h.pc_eq h.mem_eq h.status_eq fun i hi => by
    rw [setComparison_getLsbD, setComparison_getLsbD, h.flag_eq hi]

end SameButOverflow

/-! ### Shared operations -/

/-- Both outcomes are next states, and they differ in the overflow bit at most. -/
def AgreeButOverflow (x y : Result) : Prop :=
  ∃ a b, x = .next a ∧ y = .next b ∧ SameButOverflow a b

section Operations

variable {a b : State} (h : SameButOverflow a b)
include h

theorem SameButOverflow.next : AgreeButOverflow (.next a) (.next b) := ⟨a, b, rfl, rfl, h⟩

theorem raise_agree (e : RunError) : AgreeButOverflow (raise e a) (raise e b) := (h.setStatus (.failed e)).next

theorem jumpIf_agree {c c' : Bool} (hc : c' = c) (m : Memloc) : AgreeButOverflow (jumpIf c m a) (jumpIf c' m b) := by
  subst hc
  cases c'
  · exact h.next
  · exact (h.setPc (jumpTarget m)).next

theorem memRead_eq (addr : Nat) : memRead b addr = memRead a addr := by
  rw [memRead, memRead, h.mem_eq]

theorem fetchThen_agree {k : Word → State → Result}
    (hk : ∀ w, AgreeButOverflow (k w a.advancePc) (k w b.advancePc)) :
    AgreeButOverflow (fetchThen a k) (fetchThen b k) := by
  rw [fetchThen, fetchThen, memRead_eq h, h.pc_eq]
  split
  · exact raise_agree h _
  · exact hk _

theorem readThen_agree (addr : Nat) {k k' : Word → Result} (hk : ∀ w, AgreeButOverflow (k w) (k' w)) :
    AgreeButOverflow (readThen a addr k) (readThen b addr k') := by
  rw [readThen, readThen, memRead_eq h]
  split
  · exact raise_agree h _
  · exact hk _

theorem storeOrRaise_agree (addr : Nat) {v v' : Word} (hv : v' = v) :
    AgreeButOverflow (storeOrRaise a addr v) (storeOrRaise b addr v') := by
  subst hv
  obtain haddr | haddr := Nat.lt_or_ge addr 4096
  · simp only [storeOrRaise, memWrite_of_lt v' haddr, h.mem_eq]
    exact (h.setMem _).next
  · simp only [storeOrRaise, memWrite_of_ge v' haddr]
    exact raise_agree h _

theorem execDiv_agree (s t : RegField) : AgreeButOverflow (execDiv s t a) (execDiv s t b) := by
  rw [execDiv, execDiv, h.regValue_eq, h.regValue_eq]
  split
  · exact raise_agree h .divisionByZero
  · exact (h.arithFinish t _).next

/-- ADD, SUB and MUL. -/
theorem arithmetic_agree (f : Nat → Nat → Int) (s t : RegField) :
    AgreeButOverflow (.next (arithFinish t (f (regValue a s) (regValue a t)) a))
      (.next (arithFinish t (f (regValue b s) (regValue b t)) b)) := by
  rw [h.regValue_eq, h.regValue_eq]
  exact (h.arithFinish t _).next

/-- The logical and shift family. -/
theorem bitwise_agree (f : Word → Word → Word) (s t : RegField) :
    AgreeButOverflow (.next (a.writeReg t (f (a.readReg s) (a.readReg t))))
      (.next (b.writeReg t (f (b.readReg s) (b.readReg t)))) := by
  rw [h.readReg_eq, h.readReg_eq]
  exact (h.writeReg t _).next

/-! ### Instructions and steps -/

theorem exec_agree (i : Instr) : AgreeButOverflow (exec i a) (exec i b) := by
  cases i with
  | halt m => exact (h.setStatus .halted).next
  | noop m => exact h.next
  | jmp m => exact jumpIf_agree h (c := true) rfl m
  | jeq m => exact jumpIf_agree h h.isEqual_eq m
  | jgt m => exact jumpIf_agree h h.gt_eq m
  | jlt m => exact jumpIf_agree h h.lt_eq m
  | setreg s t => exact fetchThen_agree h (k := fun lit s' => .next (s'.writeReg t lit)) fun lit =>
      (h.advancePc.writeReg t lit).next
  | load s t =>
    exact fetchThen_agree h
      (k := fun addr s' => readThen s' (operandAddress addr) fun v => .next (s'.writeReg t v))
      fun addr => readThen_agree h.advancePc _ fun v => (h.advancePc.writeReg t v).next
  | store s t =>
    exact fetchThen_agree h (k := fun addr s' => storeOrRaise s' (operandAddress addr) (s'.readReg s))
      fun addr => storeOrRaise_agree h.advancePc _ (h.readReg_eq s)
  | add s t => exact arithmetic_agree h (fun x y => x + y) s t
  | sub s t => exact arithmetic_agree h (fun x y => x - y) s t
  | mul s t => exact arithmetic_agree h (fun x y => x * y) s t
  | div s t => exact execDiv_agree h s t
  | cmp s t =>
    rw [exec_cmp, exec_cmp, h.regValue_eq, h.regValue_eq]
    exact (h.setComparison _ _).next
  | and s t => exact bitwise_agree h (· &&& ·) s t
  | or s t => exact bitwise_agree h (· ||| ·) s t
  | xor s t => exact bitwise_agree h (· ^^^ ·) s t
  | shl n t => exact bitwise_agree h (fun _ y => y <<< shiftCount n) t t
  | shr n t => exact bitwise_agree h (fun _ y => y >>> shiftCount n) t t
  | not s t => exact bitwise_agree h (fun _ y => ~~~y) t t

theorem runWord_agree (w : Word) : AgreeButOverflow (runWord w a) (runWord w b) := by
  cases hw : decode w with
  | instr i =>
    rw [runWord_of_instr hw, runWord_of_instr hw]
    exact exec_agree h i
  | invalidOpcode op =>
    rw [runWord_of_invalid hw, runWord_of_invalid hw]
    exact (h.setStatus _).next

end Operations

/-- Settles O43: the fetch reads pc and memory, and what runs the word passes the relation on. -/
theorem overflowBitIsNeverRead : Obligations.OverflowBitIsNeverRead := by
  intro a b h hrun
  rw [step_of_running hrun, step_of_running (h.status_eq.trans hrun)]
  exact fetchThen_agree h fun w => runWord_agree h.advancePc w

end Sys2Proof.Machine
end

section
/-! PROOFS. Single instructions: LOAD and STORE on either side of each bounds check (42_data_transfer.md), SUB and
DIV, the arithmetic in 32 bits (43_arithmetic.md), and the shifts (44_logical_shift.md). -/

namespace Sys2Proof.Machine

/-! ### LOAD and STORE -/

section DataTransfer

variable {st : State} (s t : RegField)

theorem storeOrRaise_of_lt {a : Nat} (v : Word) (h : a < 4096) :
    storeOrRaise st a v = .next { st with mem := st.mem.set a v } := by
  rw [storeOrRaise, memWrite_of_lt v h]

theorem storeOrRaise_of_ge {a : Nat} (v : Word) (h : 4096 ≤ a) :
    storeOrRaise st a v = .next (badAddress st a) := by
  rw [storeOrRaise, memWrite_of_ge v h]
  exact raise_eq _

theorem exec_load_of_lt (hpc : st.pc.toNat < 4096) (haddr : operandAddress (st.mem.get st.pc.toNat) < 4096) :
    exec (.load s t) st =
      .next (st.advancePc.writeReg t (st.mem.get (operandAddress (st.mem.get st.pc.toNat)))) := by
  show execLoad s t st = _
  rw [execLoad, fetchThen_of_lt _ hpc]
  exact readThen_of_lt _ haddr

theorem exec_load_of_address_ge (hpc : st.pc.toNat < 4096)
    (haddr : 4096 ≤ operandAddress (st.mem.get st.pc.toNat)) :
    exec (.load s t) st = .next (badAddress st.advancePc (operandAddress (st.mem.get st.pc.toNat))) := by
  show execLoad s t st = _
  rw [execLoad, fetchThen_of_lt _ hpc]
  exact readThen_of_ge _ haddr

theorem exec_load_of_pc_ge (hpc : 4096 ≤ st.pc.toNat) :
    exec (.load s t) st = .next (badAddress st st.pc.toNat) :=
  fetchThen_of_ge (fun addr st' => readThen st' (operandAddress addr) fun v => .next (st'.writeReg t v)) hpc

theorem exec_store_of_lt (hpc : st.pc.toNat < 4096) (haddr : operandAddress (st.mem.get st.pc.toNat) < 4096) :
    exec (.store s t) st = .next (st.stored (st.readReg s)) := by
  show execStore s t st = _
  rw [execStore, fetchThen_of_lt _ hpc]
  exact storeOrRaise_of_lt _ haddr

theorem exec_store_of_address_ge (hpc : st.pc.toNat < 4096)
    (haddr : 4096 ≤ operandAddress (st.mem.get st.pc.toNat)) :
    exec (.store s t) st = .next (badAddress st.advancePc (operandAddress (st.mem.get st.pc.toNat))) := by
  show execStore s t st = _
  rw [execStore, fetchThen_of_lt _ hpc]
  exact storeOrRaise_of_ge _ haddr

theorem exec_store_of_pc_ge (hpc : 4096 ≤ st.pc.toNat) :
    exec (.store s t) st = .next (badAddress st st.pc.toNat) :=
  fetchThen_of_ge (fun addr st' => storeOrRaise st' (operandAddress addr) (st'.readReg s)) hpc

end DataTransfer

theorem stored_get_same {st : State} (v : Word) (hwf : st.mem.wf) :
    (st.stored v).mem.get (operandAddress (st.mem.get st.pc.toNat)) = v :=
  get_set_same _ v hwf.1

theorem stored_get_other (st : State) (v : Word) {a : Nat} (h : a ≠ operandAddress (st.mem.get st.pc.toNat)) :
    (st.stored v).mem.get a = st.mem.get a :=
  get_set_other st.mem v h

/-- Settles O17: one lemma for each outcome of the two bounds checks. -/
theorem loadReadsTheCellAtItsInlineAddress : Obligations.LoadReadsTheCellAtItsInlineAddress := by
  intro s t st
  refine ⟨fun x => decode_family1Word (k := .load) (by decide) x s t, fun hpc haddr => ?_,
    exec_load_of_address_ge s t, exec_load_of_pc_ge s t⟩
  exact ⟨_, exec_load_of_lt s t hpc haddr, readReg_writeReg_same st.advancePc t _, toNat_nextPc st hpc,
    advancePc_writeReg_frame st t _⟩

/-- Settles O18: one lemma for each outcome of the two bounds checks. -/
theorem storeWritesTheCellAtItsInlineAddress : Obligations.StoreWritesTheCellAtItsInlineAddress := by
  intro s t st
  refine ⟨fun x => decode_family1Word (k := .store) (by decide) x s t, fun hpc haddr => ?_,
    exec_store_of_address_ge s t, exec_store_of_pc_ge s t⟩
  exact ⟨_, exec_store_of_lt s t hpc haddr, stored_get_same _, fun _ hne => stored_get_other st _ hne,
    toNat_nextPc st hpc, fun _ => rfl, rfl, rfl⟩

/-- Settles O44: the store completes, and the cell that the next step fetches holds the value stored. -/
theorem storeIsSeenByTheNextFetch : Obligations.StoreIsSeenByTheNextFetch := by
  intro s t st hwf hrun hpc haddr
  have hnext := toNat_nextPc st (by omega)
  refine ⟨_, exec_store_of_lt s t (by omega) (by omega), fun i hi => ?_⟩
  have hcell : (st.stored (st.readReg s)).mem.get (st.pc + 1).toNat = st.readReg s := by
    rw [hnext, ← haddr]
    exact stored_get_same _ hwf
  exact step_of_instr (s := st.stored (st.readReg s)) hrun (show (st.pc + 1).toNat < 4096 by omega)
    ((congrArg decode hcell).trans hi)

/-- Settles O9: the arms do not read these fields. -/
theorem unusedFieldsHaveNoEffect : Obligations.UnusedFieldsHaveNoEffect := fun _ _ _ _ _ _ _ =>
  ⟨rfl, rfl, rfl, rfl, rfl, rfl⟩

/-! ### SUB and DIV -/

theorem overflows_iff (wide : Int) : overflows wide = true ↔ wide < 0 ∨ 65535 < wide := by
  simp [overflows]

theorem arithFinish_ov_iff (s : State) (t : RegField) (wide : Int) :
    (arithFinish t wide s).flags.getLsbD 0 = true ↔ wide < 0 ∨ 65535 < wide := by
  rw [arithFinish_getLsbD, if_pos rfl, overflows_iff]

theorem arithFinish_readReg_same (s : State) (t : RegField) (wide : Int) :
    (arithFinish t wide s).readReg t = BitVec.ofInt 16 wide := by
  rw [arithFinish_readReg, if_pos rfl]

theorem ofInt_sub_eq {n : Nat} (x y : Int) : BitVec.ofInt n (x - y) = BitVec.ofInt n x - BitVec.ofInt n y := by
  rw [Int.sub_eq_add_neg, BitVec.ofInt_add, BitVec.ofInt_neg, BitVec.sub_eq_add_neg]

theorem ofInt_sub_toNat (x y : Word) : BitVec.ofInt 16 ((x.toNat : Int) - (y.toNat : Int)) = x - y := by
  rw [ofInt_sub_eq, BitVec.ofInt_natCast, BitVec.ofInt_natCast, BitVec.ofNat_toNat, BitVec.ofNat_toNat,
    BitVec.setWidth_eq, BitVec.setWidth_eq]

theorem regValue_lt (s : State) (r : RegField) : regValue s r < 65536 := (s.readReg r).isLt

/-- Settles O20: the exact difference is negative exactly on a borrow, and never too large. -/
theorem subWritesTheDifferenceAndBorrow : Obligations.SubWritesTheDifferenceAndBorrow := by
  intro s t st
  refine ⟨fun x => decode_family1Word (k := .sub) (by decide) x s t, _, exec_sub st s t, ?_, ?_,
    arithFinish_pc st t _, arithFinish_frame st t _⟩
  · rw [arithFinish_readReg_same, ofInt_sub_toNat]
  · have hs : (st.readReg s).toNat < 65536 := regValue_lt st s
    rw [arithFinish_ov_iff]
    show (st.readReg s).toNat - ((st.readReg t).toNat : Int) < 0 ∨
      65535 < (st.readReg s).toNat - ((st.readReg t).toNat : Int) ↔ _
    omega

theorem exec_div_of_ne_zero {st : State} {s t : RegField} (h : regValue st t ≠ 0) :
    exec (.div s t) st = .next (arithFinish t ((regValue st s / regValue st t : Nat) : Int) st) := if_neg h

theorem exec_div_of_eq_zero {st : State} {s t : RegField} (h : regValue st t = 0) :
    exec (.div s t) st = .next (st.setStatus (.failed .divisionByZero)) := if_pos h

theorem regValue_eq_zero_iff (st : State) (r : RegField) : regValue st r = 0 ↔ st.readReg r = 0 :=
  BitVec.toNat_inj (y := 0)

/-- Settles O22: a quotient of 16-bit words does not overflow. -/
theorem divWritesTheQuotientOrTraps : Obligations.DivWritesTheQuotientOrTraps := by
  intro s t st
  refine ⟨fun x => decode_family1Word (k := .div) (by decide) x s t, fun hne => ?_,
    fun h => exec_div_of_eq_zero ((regValue_eq_zero_iff st t).mpr h)⟩
  refine ⟨_, exec_div_of_ne_zero fun h => hne ((regValue_eq_zero_iff st t).mp h),
    arithFinish_natCast_readReg_same st t _, ?_, arithFinish_pc st t _, arithFinish_frame st t _⟩
  have hle : regValue st s / regValue st t ≤ 65535 :=
    (Nat.div_le_self _ _).trans (Nat.le_of_lt_succ (regValue_lt st s))
  rw [← Bool.not_eq_true, arithFinish_natCast_ov_iff]
  omega

/-! ### The exact result in signed 32-bit arithmetic -/

/-- `c` is the exact result modulo 2^32, and the exact result is not so far out that wrapping hides an overflow. -/
structure Wraps32 (c : BitVec 32) (wide : Int) : Prop where
  eq_ofInt : c = BitVec.ofInt 32 wide
  ge : -(2 ^ 31) ≤ wide
  lt : wide < 2 ^ 32

theorem Wraps32.setWidth_eq {c : BitVec 32} {wide : Int} (h : Wraps32 c wide) :
    c.setWidth 16 = BitVec.ofInt 16 wide := by
  rw [h.eq_ofInt]
  apply BitVec.eq_of_toNat_eq
  simp [BitVec.toNat_ofInt]
  omega

/-- Wrapping takes a result of 2^31 or more to a negative one, which is outside 0..65535 too. -/
theorem Wraps32.outside_iff {c : BitVec 32} {wide : Int} (h : Wraps32 c wide) :
    c.toInt < 0 ∨ 65535 < c.toInt ↔ wide < 0 ∨ 65535 < wide := by
  have hge := h.ge
  have hlt := h.lt
  rw [h.eq_ofInt, BitVec.toInt_ofInt, Int.bmod_def]
  split <;> omega

theorem Wraps32.arithFinish_agrees {c : BitVec 32} {wide : Int} (h : Wraps32 c wide) {i : Instr} {st : State}
    {t : RegField} (he : exec i st = .next (arithFinish t wide st)) :
    ∃ st', exec i st = .next st' ∧ st'.readReg t = c.setWidth 16 ∧
      (st'.flags.getLsbD 0 = true ↔ c.toInt < 0 ∨ 65535 < c.toInt) :=
  ⟨_, he, (arithFinish_readReg_same st t wide).trans h.setWidth_eq.symm,
    (arithFinish_ov_iff st t wide).trans h.outside_iff.symm⟩

theorem setWidth32_eq_ofInt (x : Word) : x.setWidth 32 = BitVec.ofInt 32 (x.toNat : Int) := by
  rw [BitVec.ofInt_natCast, BitVec.ofNat_toNat]

section Wraps

variable (x y : Word)

theorem wraps32_add : Wraps32 (x.setWidth 32 + y.setWidth 32) ((x.toNat : Int) + (y.toNat : Int)) where
  eq_ofInt := by rw [BitVec.ofInt_add, setWidth32_eq_ofInt, setWidth32_eq_ofInt]
  ge := by omega
  lt := by omega

theorem wraps32_sub : Wraps32 (x.setWidth 32 - y.setWidth 32) ((x.toNat : Int) - (y.toNat : Int)) where
  eq_ofInt := by rw [ofInt_sub_eq, setWidth32_eq_ofInt, setWidth32_eq_ofInt]
  ge := by omega
  lt := by omega

theorem wraps32_mul : Wraps32 (x.setWidth 32 * y.setWidth 32) ((x.toNat : Int) * (y.toNat : Int)) where
  eq_ofInt := by rw [BitVec.ofInt_mul, setWidth32_eq_ofInt, setWidth32_eq_ofInt]
  ge := by
    have : (0 : Int) ≤ (x.toNat : Int) * (y.toNat : Int) := by positivity
    omega
  lt := by
    have hlt : x.toNat * y.toNat < 2 ^ 16 * 2 ^ 16 := Nat.mul_lt_mul'' x.isLt y.isLt
    exact_mod_cast hlt

theorem wraps32_div : Wraps32 (x.setWidth 32 / y.setWidth 32) ((x.toNat / y.toNat : Nat) : Int) where
  eq_ofInt := by
    rw [BitVec.ofInt_natCast]
    apply BitVec.eq_of_toNat_eq
    have hx : x.toNat % 2 ^ 32 = x.toNat := Nat.mod_eq_of_lt (by omega)
    have hy : y.toNat % 2 ^ 32 = y.toNat := Nat.mod_eq_of_lt (by omega)
    have hq : x.toNat / y.toNat ≤ x.toNat := Nat.div_le_self _ _
    rw [BitVec.toNat_udiv, BitVec.toNat_setWidth, BitVec.toNat_setWidth, hx, hy, BitVec.toNat_ofNat,
      Nat.mod_eq_of_lt (by omega)]
  ge := by
    have : (0 : Int) ≤ ((x.toNat / y.toNat : Nat) : Int) := Int.natCast_nonneg _
    omega
  lt := by
    have hq : x.toNat / y.toNat ≤ x.toNat := Nat.div_le_self _ _
    omega

end Wraps

/-- Settles O24: each 32-bit result is the exact one wrapped (`Wraps32`). -/
theorem arithmeticAgreesWithSigned32 : Obligations.ArithmeticAgreesWithSigned32 := by
  intro s t st a b ha hb
  subst ha hb
  refine ⟨(wraps32_add _ _).arithFinish_agrees (exec_add st s t),
    (wraps32_sub _ _).arithFinish_agrees (exec_sub st s t),
    (wraps32_mul _ _).arithFinish_agrees (exec_mul st s t),
    fun hne => (wraps32_div _ _).arithFinish_agrees (exec_div_of_ne_zero fun h => hne ?_)⟩
  rw [(regValue_eq_zero_iff st t).mp h]
  rfl

/-! ### Shifts -/

/-- Settles O28: a shift left by the field's value. -/
theorem shlShiftsLeftByTheLiteralCount : Obligations.ShlShiftsLeftByTheLiteralCount := by
  intro n t st
  obtain ⟨st', hexec, hval, hkeeps⟩ := exists_next_of_exec_eq_writeReg (exec_shl st t n)
  have hvalue : (st'.readReg t).toNat = (st.readReg t).toNat * 2 ^ n.toNat % 65536 := by
    rw [hval, BitVec.toNat_shiftLeft, Nat.shiftLeft_eq, shiftCount]
  exact ⟨fun x => decode_family1Word (k := .shl) (by decide) x n t, st', hexec, hvalue, hkeeps⟩

/-- Settles O29: a logical shift right by the field's value. -/
theorem shrShiftsRightByTheLiteralCount : Obligations.ShrShiftsRightByTheLiteralCount := by
  intro n t st
  obtain ⟨st', hexec, hval, hkeeps⟩ := exists_next_of_exec_eq_writeReg (exec_shr st t n)
  have hvalue : (st'.readReg t).toNat = (st.readReg t).toNat / 2 ^ n.toNat := by
    rw [hval, BitVec.toNat_ushiftRight, Nat.shiftRight_eq_div_pow, shiftCount]
  exact ⟨fun x => decode_family1Word (k := .shr) (by decide) x n t, st', hexec, hvalue, hkeeps⟩

end Sys2Proof.Machine
end

section
/-! PROOFS. Reset and runs (10_state.md section 7, 40_engine_cycle.md section 1, 70_reset_and_hazards.md section 5): a
run within a budget and the steps that it takes reach the same final states. -/

namespace Sys2Proof.Machine

/-! ### Reset -/

theorem readReg_reset (r : RegField) : State.reset.readReg r = 0 := by
  simp [State.readReg, State.reset]

/-- Settles O48: a replicated register file, the empty memory, and closed values. -/
theorem resetStateIsAllZeroWithThePcAtStart : Obligations.ResetStateIsAllZeroWithThePcAtStart :=
  ⟨readReg_reset, rfl, rfl, get_nil, rfl, rfl, rfl, rfl⟩

/-- Settles O45. -/
theorem resetMeetsTheInvariant : Obligations.ResetMeetsTheInvariant where
  pc_le := by decide
  flags_legal := by decide
  mem_wf := reset_mem_wf
  status_legal := trivial

/-- Settles O53: the blank cell at 256 is a HALT word. -/
theorem runOnAFreshMachineHaltsAt257 : Obligations.RunOnAFreshMachineHaltsAt257 := rfl

/-! ### Runs -/

theorem Ended.not_running {s : State} (h : Ended s) : s.status ≠ .running := by
  obtain h | ⟨e, h⟩ := h <;> simp [h]

/-- A step leaves a state of a run or an ended one. -/
theorem running_or_ended_of_step {s s' : State} (h : step s = .next s') : s'.status = .running ∨ Ended s' := by
  obtain ⟨-, hrun | hhalted | ⟨e, he, -⟩⟩ := runEndsOnlyAtHaltOrError s s' (running_of_step h) h
  · exact .inl hrun
  · exact .inr (.inl hhalted)
  · exact .inr (.inr ⟨e, he⟩)

/-- The end of a run within a budget is a final state that so many steps reach. -/
theorem ended_and_reached_of_runWithin {k : Nat} {s final : State} (hs : s.status = .running ∨ Ended s)
    (h : runWithin k s = some final) : Ended final ∧ ∃ n, n ≤ k ∧ core.run n s = .next final := by
  induction k generalizing s with
  | zero =>
    obtain ⟨hstop, rfl⟩ | ⟨j, s', hk, -⟩ := runWithin_cases h
    · exact ⟨hs.resolve_left hstop, 0, Nat.le_refl 0, rfl⟩
    · cases hk
  | succ k ih =>
    obtain ⟨hstop, rfl⟩ | ⟨j, s', hk, hstep, hrest⟩ := runWithin_cases h
    · exact ⟨hs.resolve_left hstop, 0, Nat.zero_le _, rfl⟩
    · obtain rfl := Nat.succ.inj hk
      obtain ⟨hended, n, hn, hrun⟩ := ih (running_or_ended_of_step hstep) hrest
      exact ⟨hended, n + 1, Nat.succ_le_succ hn, (core_run_succ hstep).trans hrun⟩

/-- A final state that `n` steps reach is the end of the run within the budget `n`. -/
theorem runWithin_of_reached {n : Nat} {s final : State} (h : core.run n s = .next final) (hended : Ended final) :
    runWithin n s = some final := by
  induction n generalizing s with
  | zero =>
    obtain ⟨-, rfl⟩ | ⟨k, s', hn, -⟩ := core_run_cases h
    · exact runWithin_of_not_running hended.not_running
    · cases hn
  | succ n ih =>
    obtain ⟨hn, -⟩ | ⟨k, s', hn, hstep, hrest⟩ := core_run_cases h
    · cases hn
    · obtain rfl := Nat.succ.inj hn
      exact (runWithin_succ hstep).trans (ih hrest)

/-- Settles O51: a run and its steps reach the same final states, by induction on their number. -/
theorem runStartsAt256AndStepsToItsEnd : Obligations.RunStartsAt256AndStepsToItsEnd := fun _ =>
  ⟨rfl, hostCall_of_not_running .run, fun _ _ h => ended_and_reached_of_runWithin (.inl rfl) h,
    fun _ _ h hended => runWithin_of_reached h hended⟩

theorem runWithin_mono {k more : Nat} {s final : State} (hle : k ≤ more) (h : runWithin k s = some final) :
    runWithin more s = some final := by
  induction k generalizing s more with
  | zero =>
    obtain ⟨hstop, rfl⟩ | ⟨j, s', hk, -⟩ := runWithin_cases h
    · exact runWithin_of_not_running hstop
    · cases hk
  | succ k ih =>
    obtain ⟨hstop, rfl⟩ | ⟨j, s', hk, hstep, hrest⟩ := runWithin_cases h
    · exact runWithin_of_not_running hstop
    · obtain rfl := Nat.succ.inj hk
      obtain ⟨more, rfl⟩ := Nat.exists_eq_add_of_lt hle
      exact (runWithin_succ hstep).trans (ih (Nat.le_add_right k more) hrest)

/-- Settles O52, by induction on the smaller budget. -/
theorem greaterBudgetsDoNotChangeTheFinalState : Obligations.GreaterBudgetsDoNotChangeTheFinalState :=
  fun _ _ _ _ hle h => runWithin_mono hle h

end Sys2Proof.Machine
end

section
/-! PROOFS. The host's calls (20_memory.md section 5, 70_reset_and_hazards.md section 3): the slots that each call
reads and writes, what `Load` leaves, and the invariant. -/

namespace Sys2Proof.Machine

theorem hostCall_of_running {s : State} (c : HostCall) (h : s.status = .running) :
    hostCall c s = .refused .hostCallDuringRun := by
  rw [hostCall, h]

/-- Settles O58. -/
theorem hostCallsDuringARunAreRefused : Obligations.HostCallsDuringARunAreRefused := fun c _ hrun =>
  hostCall_of_running c hrun

/-! ### The host's single-slot accesses -/

section Slots

variable (s : State) {a : Nat} (v : Word)

theorem getRegister_of_lt (h : a < 16) : getRegister s a = (s, .word (s.readReg (BitVec.ofNat 4 a))) :=
  if_neg (Nat.not_le_of_lt h)

theorem getRegister_of_ge (h : 16 ≤ a) : getRegister s a = (s, .error (.invalidRegister a)) := if_pos h

theorem setRegister_of_lt (h : a < 16) : setRegister s a v = (s.writeReg (BitVec.ofNat 4 a) v, .ok) :=
  if_neg (Nat.not_le_of_lt h)

theorem setRegister_of_ge (h : 16 ≤ a) : setRegister s a v = (s, .error (.invalidRegister a)) := if_pos h

theorem getMemory_of_lt (h : a < 4096) : getMemory s a = (s, .word (s.mem.get a)) := by
  rw [getMemory, memRead_of_lt h]

theorem getMemory_of_ge (h : 4096 ≤ a) : getMemory s a = (s, .error (.invalidMemoryLocation a)) := by
  rw [getMemory, memRead_of_ge h]

theorem setMemory_of_lt (h : a < 4096) : setMemory s a v = ({ s with mem := s.mem.set a v }, .ok) := by
  rw [setMemory, memWrite_of_lt v h]

theorem setMemory_of_ge (h : 4096 ≤ a) : setMemory s a v = (s, .error (.invalidMemoryLocation a)) := by
  rw [setMemory, memWrite_of_ge v h]

theorem eq_ofNat_iff (q : RegField) (h : a < 16) : q = BitVec.ofNat 4 a ↔ q.toNat = a := by
  rw [← BitVec.toNat_inj, BitVec.toNat_ofNat, Nat.mod_eq_of_lt h]

end Slots

/-- Settles O54: outside a run each call is its operation, which splits at its bound. -/
theorem hostAccessesAreBoundsChecked : Obligations.HostAccessesAreBoundsChecked := by
  intro st a v hstop
  have hcall (c : HostCall) : hostCall c st = acceptedCall c st := hostCall_of_not_running c hstop
  simp only [hcall, acceptedCall]
  refine ⟨fun h => ⟨congrArg _ (getRegister_of_ge st h), congrArg _ (setRegister_of_ge st v h)⟩,
    fun h => ⟨congrArg _ (getRegister_of_lt st h), _, congrArg _ (setRegister_of_lt st v h), fun q => ?_,
      rfl, rfl, rfl, rfl⟩,
    fun h => ⟨congrArg _ (getMemory_of_ge st h), congrArg _ (setMemory_of_ge st v h)⟩,
    fun h => ⟨congrArg _ (getMemory_of_lt st h), _, congrArg _ (setMemory_of_lt st v h),
      fun hwf => get_set_same a v hwf.1, fun b hne => get_set_other st.mem v hne, rfl, rfl, rfl, rfl⟩⟩
  rw [readReg_writeReg]
  exact if_congr (eq_ofNat_iff q h) rfl rfl

/-! ### `Load` -/

/-- `Load` leaves the cells outside its words alone. -/
theorem loadWords_get_of_outside {s s' : State} {base : Nat} {words : List Word} {r : Reply}
    (h : loadWords s base words = (s', r)) {a : Nat} (ha : a < base ∨ base + words.length ≤ a) :
    s'.mem.get a = s.mem.get a := by
  induction words generalizing s base with
  | nil =>
    cases h
    rfl
  | cons v rest ih =>
    rw [List.length_cons] at ha
    obtain hb | hb := Nat.lt_or_ge base 4096
    · rw [loadWords_cons_of_lt s v rest hb] at h
      rw [ih h (by omega)]
      exact get_set_other s.mem v (by omega)
    · rw [loadWords_cons_of_ge s v rest hb] at h
      cases h
      rfl

theorem loadWords_mem_wf {s s' : State} {base : Nat} {words : List Word} {r : Reply}
    (h : loadWords s base words = (s', r)) (hwf : s.mem.wf) : s'.mem.wf := by
  induction words generalizing s base with
  | nil =>
    cases h
    exact hwf
  | cons v rest ih =>
    obtain hb | hb := Nat.lt_or_ge base 4096
    · rw [loadWords_cons_of_lt s v rest hb] at h
      exact ih h (set_wf v hb hwf)
    · rw [loadWords_cons_of_ge s v rest hb] at h
      cases h
      exact hwf

/-- The words that fit are read back where they belong: the later ones by induction, and the first because
`Load` does not come back to it. -/
theorem loadWords_get_of_fits {s s' : State} {base : Nat} {words : List Word} {r : Reply}
    (h : loadWords s base words = (s', r)) (hwf : s.mem.wf) {k : Nat} {v : Word} (hv : words[k]? = some v)
    (hfits : base + k < 4096) : s'.mem.get (base + k) = v := by
  induction words generalizing s base k with
  | nil => simp at hv
  | cons u rest ih =>
    have hb : base < 4096 := by omega
    rw [loadWords_cons_of_lt s u rest hb] at h
    cases k with
    | zero =>
      obtain rfl : u = v := by simpa using hv
      rw [Nat.add_zero, loadWords_get_of_outside h (.inl (Nat.lt_succ_self base))]
      exact get_set_same base u hwf.1
    | succ k =>
      have hrest := ih h (set_wf u hb hwf) (k := k) (by simpa using hv) (by omega)
      rwa [Nat.add_right_comm] at hrest

/-- The reply of `Load`. -/
def loadReply (base : Nat) (words : List Word) : Reply :=
  if words = [] ∨ base + words.length ≤ 4096 then .ok else .error (.invalidMemoryLocation (max base 4096))

theorem loadReply_cons_of_lt {base : Nat} (v : Word) (rest : List Word) (hb : base < 4096) :
    loadReply base (v :: rest) = loadReply (base + 1) rest := by
  have hmax : max base 4096 = max (base + 1) 4096 := by omega
  have hiff : (v :: rest = [] ∨ base + (v :: rest).length ≤ 4096) ↔
      (rest = [] ∨ base + 1 + rest.length ≤ 4096) := by
    cases rest with
    | nil => simp; omega
    | cons u rest => simp; omega
  rw [loadReply, loadReply, hmax]
  exact if_congr hiff rfl rfl

theorem loadWords_reply {s s' : State} {base : Nat} {words : List Word} {r : Reply}
    (h : loadWords s base words = (s', r)) : r = loadReply base words := by
  induction words generalizing s base with
  | nil =>
    cases h
    rfl
  | cons v rest ih =>
    obtain hb | hb := Nat.lt_or_ge base 4096
    · rw [loadWords_cons_of_lt s v rest hb] at h
      rw [ih h, loadReply_cons_of_lt v rest hb]
    · rw [loadWords_cons_of_ge s v rest hb] at h
      cases h
      rw [loadReply, if_neg (by simp; omega), Nat.max_eq_left hb]

/-- Settles O55: contents, frame and reply of `loadWords`, each by induction on the words. -/
theorem loadWritesTheWordsThatFit : Obligations.LoadWritesTheWordsThatFit := by
  intro st base words hwf hstop
  obtain ⟨⟨st', r⟩, hload⟩ : ∃ x, loadWords st base words = x := ⟨_, rfl⟩
  obtain ⟨hstatus, hregs, hpc, hflags⟩ := loadWords_frame hload
  refine ⟨st', r, ?_, fun k v hv hfits => loadWords_get_of_fits hload hwf hv hfits, fun a ha => ?_,
    loadWords_reply hload, hregs, hpc, hflags, hstatus⟩
  · rw [hostCall_of_not_running _ hstop, ← hload]
    rfl
  · obtain ha | ha | ha := ha
    · exact loadWords_get_of_outside hload (.inl ha)
    · exact loadWords_get_of_outside hload (.inr ha)
    · exact loadWords_get_of_ge hload ha

/-! ### Observations -/

/-- Settles O57: each getter is its field of the state, and Encode answers on its domain. -/
theorem hostObservationsReadTheState : Obligations.HostObservationsReadTheState := by
  intro st w hstop
  have hcall (c : HostCall) : hostCall c st = acceptedCall c st := hostCall_of_not_running c hstop
  simp only [hcall]
  have hencode {f : Fields} {x : Word} (h : encodeFields f = some x) :
      acceptedCall (.encode f) st = .next (st, .word x) := by rw [acceptedCall_encode, h]
  refine ⟨rfl, rfl, rfl, rfl, rfl, rfl, rfl, fun f => ⟨fun x => hencode, fun hle => ?_, fun hgt => ?_⟩⟩
  · exact ⟨_, hencode (encodeFields_of_le hle)⟩
  · rw [acceptedCall_encode, (encodeFields_eq_none_iff f).mpr hgt]

/-! ### The invariant -/

theorem loadWords_keeps_inv {s s' : State} {base : Nat} {words : List Word} {r : Reply}
    (h : loadWords s base words = (s', r)) (hinv : Inv s) : Inv s' := by
  obtain ⟨hstatus, -, hpc, hflags⟩ := loadWords_frame h
  exact ⟨hpc ▸ hinv.pc_le, hflags ▸ hinv.flags_legal, loadWords_mem_wf h hinv.mem_wf,
    hstatus ▸ hinv.status_legal⟩

theorem setMemory_keeps_inv {s : State} (a : Nat) (v : Word) (hinv : Inv s) : Inv (setMemory s a v).1 := by
  obtain ha | ha := Nat.lt_or_ge a 4096
  · rw [setMemory_of_lt s v ha]
    exact { hinv with mem_wf := set_wf v ha hinv.mem_wf }
  · rwa [setMemory_of_ge s v ha]

theorem getMemory_state (s : State) (a : Nat) : (getMemory s a).1 = s := by
  obtain ha | ha := Nat.lt_or_ge a 4096
  · rw [getMemory_of_lt s ha]
  · rw [getMemory_of_ge s ha]

theorem Inv.writeReg {s : State} (h : Inv s) (r : RegField) (v : Word) : Inv (s.writeReg r v) := { h with }

theorem setRegister_keeps_inv {s : State} (i : Nat) (v : Word) (hinv : Inv s) : Inv (setRegister s i v).1 := by
  obtain hi | hi := Nat.lt_or_ge i 16
  · rw [setRegister_of_lt s v hi]
    exact hinv.writeReg _ v
  · rwa [setRegister_of_ge s v hi]

theorem getRegister_state (s : State) (i : Nat) : (getRegister s i).1 = s := by
  obtain hi | hi := Nat.lt_or_ge i 16
  · rw [getRegister_of_lt s hi]
  · rw [getRegister_of_ge s hi]

theorem startRun_keeps_inv {s : State} (hinv : Inv s) : Inv (startRun s) :=
  { hinv with pc_le := by rw [startRun_pc]; decide, status_legal := trivial }

theorem acceptedCall_keeps_inv {c : HostCall} {s s' : State} {r : Reply} (hinv : Inv s)
    (h : acceptedCall c s = .next (s', r)) : Inv s' := by
  cases c with
  | load base words => exact loadWords_keeps_inv (Host.Outcome.next.inj h) hinv
  | setMemory a v =>
    obtain rfl := congrArg Prod.fst (Host.Outcome.next.inj h)
    exact setMemory_keeps_inv a v hinv
  | getMemory a =>
    obtain rfl := congrArg Prod.fst (Host.Outcome.next.inj h)
    rwa [getMemory_state]
  | setRegister i v =>
    obtain rfl := congrArg Prod.fst (Host.Outcome.next.inj h)
    exact setRegister_keeps_inv i v hinv
  | getRegister i =>
    obtain rfl := congrArg Prod.fst (Host.Outcome.next.inj h)
    rwa [getRegister_state]
  | run =>
    cases h
    exact startRun_keeps_inv hinv
  | encode f =>
    rw [acceptedCall_encode] at h
    split at h
    · cases h
      exact hinv
    · cases h
  | getOverflow | getEqual | getGreater | getLesser | programCounter | memorySize | decode =>
    cases h
    exact hinv

/-- Settles O47: an answered call was accepted, and each accepted call keeps the invariant. -/
theorem everyHostCallKeepsTheInvariant : Obligations.EveryHostCallKeepsTheInvariant := fun _ _ _ _ hinv h =>
  acceptedCall_keeps_inv hinv (acceptedCall_of_hostCall_next h)

end Sys2Proof.Machine
end

section
/-! PROOFS. Placing an instruction with `withFetchWord` (log entry 22): where it stands, and what the next step
fetches. -/

namespace Sys2Proof.Machine

/-- Where `withFetchWord` places the instruction: at the pc, or at the program start if it does not fit. -/
def State.placeAddress (s : State) : Word :=
  if s.pc.toNat + 2 ≤ Config.memWords then s.pc else BitVec.ofNat 16 Config.programStart

theorem placeAddress_of_fits {s : State} (h : s.pc.toNat + 2 ≤ 4096) : s.placeAddress = s.pc := if_pos h

theorem placeAddress_fits (s : State) : s.placeAddress.toNat + 2 ≤ 4096 := by
  unfold State.placeAddress
  split
  · assumption
  · decide

section Placing

variable (s : State) (nbits w : Nat)

theorem withFetchWord_mem : (s.withFetchWord nbits w).mem =
    (s.mem.set s.placeAddress.toNat (tableFirstWord nbits w)).set (s.placeAddress.toNat + 1)
      (tableSecondWord nbits w) := rfl

variable {s} (hwf : s.mem.wf)
include hwf

theorem withFetchWord_get_first :
    (s.withFetchWord nbits w).mem.get s.placeAddress.toNat = tableFirstWord nbits w := by
  rw [withFetchWord_mem, get_set_other _ _ (Nat.ne_of_lt (Nat.lt_succ_self _)), get_set_same _ _ hwf.1]

theorem withFetchWord_get_second :
    (s.withFetchWord nbits w).mem.get (s.placeAddress.toNat + 1) = tableSecondWord nbits w := by
  rw [withFetchWord_mem, get_set_same _ _ (set_pairwise _ _ hwf.1)]

end Placing

theorem decode_of_decodeTableWord {nbits w : Nat} {i : Instr} (h : decodeTableWord nbits w = some i) :
    decode (tableFirstWord nbits w) = .instr i := by
  unfold decodeTableWord at h
  split at h
  · next hi => rw [hi, Option.some.inj h]
  · cases h

/-- Settles O59: the two cells placed are the word that the next step fetches and its operand word. -/
theorem placedInstructionRunsInTheNextStep : Obligations.PlacedInstructionRunsInTheNextStep := by
  intro st nbits w i hwf hdecode
  have hfits := placeAddress_fits st
  have hpc : st.placeAddress.toNat < 4096 := by omega
  have hnext : (st.withFetchWord nbits w).advancePc.pc.toNat = st.placeAddress.toNat + 1 :=
    toNat_nextPc (st.withFetchWord nbits w) hpc
  have hfetch : decode ((st.withFetchWord nbits w).mem.get st.placeAddress.toNat) = .instr i := by
    rw [withFetchWord_get_first nbits w hwf, decode_of_decodeTableWord hdecode]
  refine ⟨(st.withFetchWord nbits w).advancePc, step_of_instr rfl hpc hfetch, rfl, by omega, ?_, rfl, rfl,
    fun h => congrArg (· + 1) (placeAddress_of_fits h)⟩
  rw [hnext]
  exact withFetchWord_get_second nbits w hwf

end Sys2Proof.Machine
end
